-- ==== Sys2Proof/Word.lean ====
section
/-! DEFINITION. The widths the spec names: the byte of both streams, the operand and result port, the byte count port
and the command word. -/

namespace Sys2Proof

/-- A byte of `RX` or `TX` (20_memory.md R41); bit 7 is its high bit (00_scope.md R10). -/
abbrev Byte := BitVec 8

/-- A value on the operand port `a` or the result port `r`, `AW = 64` (00_scope.md R9). -/
abbrev Port := BitVec 64

/-- A value on the byte count port `n`, `NW = 4` (00_scope.md R9). -/
abbrev Count := BitVec 4

/-- A command word, format `CMD`, 67 bits, bit 66 the most significant (30_encoding.md R61). -/
abbrev Cmd := BitVec 67

end Sys2Proof
end

