-- ==== Sys2Proof/Config.lean ====
section
/-! DEFINITION. What is fixed for one machine and is not state (10_state.md R36): the two parameters on which the
source contradicts itself, the default carrier of the open type `Err`, and the free values. -/

namespace Sys2Proof

/-- The two named parameters of the 64-bit wire format (00_scope.md R6, R7). Which pairs are legal is
`Profile.wellFormed`; which one the machine has is `Machine.profile`. -/
structure Profile where
  /-- `MAXB64`, the most bytes a 64-bit value takes (00_scope.md R6). -/
  maxB64 : Nat
  /-- `LASTMASK64`, the mask of the last byte a 64-bit decode can read (00_scope.md R7). -/
  lastMask64 : Byte
  deriving DecidableEq, Repr

/-- Profile P-DOC, this spec's hardware (00_scope.md R8). -/
def Profile.pDoc : Profile := { maxB64 := 9, lastMask64 := 0xFF }

/-- Profile P-LITERAL, rejected, kept as an argument (00_scope.md R8, 90_conflicts.md C3). -/
def Profile.pLiteral : Profile := { maxB64 := 9, lastMask64 := 0x7F }

/-- Profile P-FORMULA, rejected, kept as an argument (00_scope.md R8, 90_conflicts.md C1). -/
def Profile.pFormula : Profile := { maxB64 := 10, lastMask64 := 0x7F }

/-- One carrier for the open type `Err` of the failure values a channel reports (00_scope.md R9, 92_eei_decisions.md D9). The
model takes that type as an argument; this is its default, at which the host's interface is met. DESIGN CHOICE, log 2: the
spec names one value, the list channel's `EndOfData` (20_memory.md R55); every other failure value is a number. -/
inductive Err where
  | endOfData
  | other (code : Nat)
  deriving DecidableEq, Repr, Inhabited

/-- Free value (log 14, safe): the `r` wires while response number `k` is a `Fail` (93_implementation_defined.md U6). -/
opaque Config.failR : Nat → Port

/-- Free value (log 14, safe): the `n` wires while response number `k` is a `Fail` (93_implementation_defined.md U6). -/
opaque Config.failN : Nat → Count

/-- Free value (log 14, safe): the `e` wires while response number `k` is an `Ok` (30_encoding.md R66). -/
opaque Config.okE (ε : Type) [Inhabited ε] : Nat → ε

end Sys2Proof
end

