-- ==== Sys2Proof/Syntax.lean ====
section
/-! DEFINITION. The eight operations as syntax, and the assembler's command line. -/

namespace Sys2Proof

/-- A decoded command, one constructor per row of spec/opcode_table.json. The operand is typed at the width of the
operation, and a decoder has none: the view through which 10_state.md R27 asks claims to be stated. -/
inductive Instr where
  /-- 40_zigzag.md R81; the operand is the two's-complement pattern of a signed 32-bit integer. -/
  | zigzagEncode32 (x : BitVec 32)
  /-- 40_zigzag.md R82. -/
  | zigzagDecode32 (u : BitVec 32)
  /-- 40_zigzag.md R83; the operand is the two's-complement pattern of a signed 64-bit integer. -/
  | zigzagEncode64 (x : BitVec 64)
  /-- 40_zigzag.md R84. -/
  | zigzagDecode64 (u : BitVec 64)
  /-- 41_varint_encode.md R102. -/
  | varintEncodeUnsigned32 (x : BitVec 32)
  /-- 42_varint_decode.md R122. -/
  | varintDecodeUnsigned32
  /-- 41_varint_encode.md R103. -/
  | varintEncodeUnsigned64 (x : BitVec 64)
  /-- 42_varint_decode.md R123. -/
  | varintDecodeUnsigned64
  deriving DecidableEq, Repr

/-- The eight operations without their operands (00_scope.md R1, in that order). -/
inductive Op where
  | zigzagEncode32
  | zigzagDecode32
  | zigzagEncode64
  | zigzagDecode64
  | varintEncodeUnsigned32
  | varintDecodeUnsigned32
  | varintEncodeUnsigned64
  | varintDecodeUnsigned64
  deriving DecidableEq, Repr

/-- The operation of a decoded command. -/
def Instr.op : Instr → Op
  | .zigzagEncode32 _ => .zigzagEncode32
  | .zigzagDecode32 _ => .zigzagDecode32
  | .zigzagEncode64 _ => .zigzagEncode64
  | .zigzagDecode64 _ => .zigzagDecode64
  | .varintEncodeUnsigned32 _ => .varintEncodeUnsigned32
  | .varintDecodeUnsigned32 => .varintDecodeUnsigned32
  | .varintEncodeUnsigned64 _ => .varintEncodeUnsigned64
  | .varintDecodeUnsigned64 => .varintDecodeUnsigned64

/-- The two legal widths `W`; no other exists (00_scope.md R5). -/
inductive Width where
  | w32
  | w64
  deriving DecidableEq, Repr

/-- The number of bits of a width. -/
def Width.bits : Width → Nat
  | .w32 => 32
  | .w64 => 64

/-- The two layers of the block (00_scope.md R2). -/
inductive Layer where
  | zigzag
  | varint
  deriving DecidableEq, Repr

/-- The two directions (30_encoding.md R63). -/
inductive Direction where
  | encode
  | decode
  deriving DecidableEq, Repr

/-- The width of an operation (00_scope.md R5: fixed by the op code). -/
def Op.width : Op → Width
  | .zigzagEncode32 => .w32
  | .zigzagDecode32 => .w32
  | .zigzagEncode64 => .w64
  | .zigzagDecode64 => .w64
  | .varintEncodeUnsigned32 => .w32
  | .varintDecodeUnsigned32 => .w32
  | .varintEncodeUnsigned64 => .w64
  | .varintDecodeUnsigned64 => .w64

/-- The layer of an operation (00_scope.md R2). -/
def Op.layer : Op → Layer
  | .zigzagEncode32 => .zigzag
  | .zigzagDecode32 => .zigzag
  | .zigzagEncode64 => .zigzag
  | .zigzagDecode64 => .zigzag
  | .varintEncodeUnsigned32 => .varint
  | .varintDecodeUnsigned32 => .varint
  | .varintEncodeUnsigned64 => .varint
  | .varintDecodeUnsigned64 => .varint

/-- The direction of an operation. -/
def Op.direction : Op → Direction
  | .zigzagEncode32 => .encode
  | .zigzagDecode32 => .decode
  | .zigzagEncode64 => .encode
  | .zigzagDecode64 => .decode
  | .varintEncodeUnsigned32 => .encode
  | .varintDecodeUnsigned32 => .decode
  | .varintEncodeUnsigned64 => .encode
  | .varintDecodeUnsigned64 => .decode

/-- An operand as an assembler line writes it (30_encoding.md R74). -/
inductive Literal where
  /-- `0x...`, the bit pattern. -/
  | hex (p : Nat)
  /-- A decimal literal, which may be negative. -/
  | dec (z : Int)
  deriving DecidableEq, Repr

/-- One command line of the assembler, `mnemonic operand` (30_encoding.md R74), its text already split. -/
structure CommandLine where
  op : Op
  operand : Option Literal
  deriving DecidableEq, Repr

end Sys2Proof
end

