-- ==== Sys2Proof/WellFormed.lean ====
section
/-! DEFINITION. What is well formed: a parameter profile, a command (always), a command line of the assembler. -/

namespace Sys2Proof

/-- The legal values of `MAXB64` and `LASTMASK64`: 9 or 10, 0xFF or 0x7F, and only 0x7F when `MAXB64 = 10`
(00_scope.md R6, R7; the list at the end of 92_eei_decisions.md). -/
def Profile.wellFormed (p : Profile) : Bool :=
  (p.maxB64 == 9 && (p.lastMask64 == 0xFF || p.lastMask64 == 0x7F)) || (p.maxB64 == 10 && p.lastMask64 == 0x7F)

/-- Every command is well formed: no reserved or illegal command encoding exists (30_encoding.md R65), and the operand's
width is in its type. -/
def Instr.wellFormed : Instr → Bool
  | .zigzagEncode32 _ => true
  | .zigzagDecode32 _ => true
  | .zigzagEncode64 _ => true
  | .zigzagDecode64 _ => true
  | .varintEncodeUnsigned32 _ => true
  | .varintDecodeUnsigned32 => true
  | .varintEncodeUnsigned64 _ => true
  | .varintDecodeUnsigned64 => true

/-- Whether a decimal literal may be negative: only for the two zigzag encoders (30_encoding.md R74). -/
def Op.signedOperand : Op → Bool
  | .zigzagEncode32 => true
  | .zigzagDecode32 => false
  | .zigzagEncode64 => true
  | .zigzagDecode64 => false
  | .varintEncodeUnsigned32 => false
  | .varintDecodeUnsigned32 => false
  | .varintEncodeUnsigned64 => false
  | .varintDecodeUnsigned64 => false

/-- Whether an operation takes an operand: all but the two varint decoders (30_encoding.md R74). -/
def Op.takesOperand : Op → Bool
  | .zigzagEncode32 => true
  | .zigzagDecode32 => true
  | .zigzagEncode64 => true
  | .zigzagDecode64 => true
  | .varintEncodeUnsigned32 => true
  | .varintDecodeUnsigned32 => false
  | .varintEncodeUnsigned64 => true
  | .varintDecodeUnsigned64 => false

/-- An operand that does not fit the width of the operation is an assembler error (30_encoding.md R74). A hexadecimal
literal is a bit pattern. A decimal literal fits a signed operand when it lies in the signed range of the width, and any
other operand when it lies in the unsigned range (00_scope.md R11). -/
def Literal.fits (l : Literal) (op : Op) : Bool :=
  match l with
  | .hex p => decide (p < 2 ^ op.width.bits)
  | .dec z =>
    if op.signedOperand then decide (-(2 ^ (op.width.bits - 1) : Int) ≤ z ∧ z < 2 ^ (op.width.bits - 1))
    else decide (0 ≤ z ∧ z < 2 ^ op.width.bits)

/-- A command line is well formed when it has an operand exactly if the operation takes one, and the operand fits
(30_encoding.md R74). -/
def CommandLine.wellFormed (c : CommandLine) : Bool :=
  match c.operand with
  | none => !c.op.takesOperand
  | some l => c.op.takesOperand && l.fits c.op

end Sys2Proof
end

