-- ==== Sys2Proof/Decode.lean ====
section
/-! DEFINITION. The command word: its fields, the decoder (total, 30_encoding.md R65), the encoder, and the opcode table
of 30_encoding.md R62 as data. -/

namespace Sys2Proof

/-- The field `op`, bits 66:64 (30_encoding.md R61). -/
def cmdOp (w : Cmd) : BitVec 3 := w.extractLsb' 64 3

/-- The field `a`, bits 63:0 (30_encoding.md R61). -/
def cmdA (w : Cmd) : Port := w.extractLsb' 0 64

/-- The operand of a 32-bit operation, `a[31:0]`; `a[63:32]` takes no part (30_encoding.md R64). -/
def operand32 (a : Port) : BitVec 32 := a.extractLsb' 0 32

/-- The command a 67-bit word stands for (30_encoding.md R62, R64), by the three bits of `op`, most significant first.
All eight values are assigned, so no word is refused (R65). -/
def decode (w : Cmd) : Instr :=
  match (cmdOp w).getLsbD 2, (cmdOp w).getLsbD 1, (cmdOp w).getLsbD 0 with
  | false, false, false => .zigzagEncode32 (operand32 (cmdA w))
  | false, false, true => .zigzagDecode32 (operand32 (cmdA w))
  | false, true, false => .zigzagEncode64 (cmdA w)
  | false, true, true => .zigzagDecode64 (cmdA w)
  | true, false, false => .varintEncodeUnsigned32 (operand32 (cmdA w))
  | true, false, true => .varintDecodeUnsigned32
  | true, true, false => .varintEncodeUnsigned64 (cmdA w)
  | true, true, true => .varintDecodeUnsigned64

/-- The operation codes (30_encoding.md R62). -/
def Op.code : Op → BitVec 3
  | .zigzagEncode32 => 0b000
  | .zigzagDecode32 => 0b001
  | .zigzagEncode64 => 0b010
  | .zigzagDecode64 => 0b011
  | .varintEncodeUnsigned32 => 0b100
  | .varintDecodeUnsigned32 => 0b101
  | .varintEncodeUnsigned64 => 0b110
  | .varintDecodeUnsigned64 => 0b111

/-- The operand port for a command: a 32-bit operand in `a[31:0]` with zeros above, and `a = 0` for a decoder, as the
assembler sets them (30_encoding.md R74). -/
def Instr.a : Instr → Port
  | .zigzagEncode32 x => x.setWidth 64
  | .zigzagDecode32 u => u.setWidth 64
  | .zigzagEncode64 x => x
  | .zigzagDecode64 u => u
  | .varintEncodeUnsigned32 x => x.setWidth 64
  | .varintDecodeUnsigned32 => 0
  | .varintEncodeUnsigned64 x => x
  | .varintDecodeUnsigned64 => 0

/-- The command word of a command: `op` above `a` (30_encoding.md R61). -/
def encode (i : Instr) : Cmd := i.op.code ++ i.a

/-- The bits of `a` that take part in an operation (30_encoding.md R64). -/
def Op.operandMask : Op → Port
  | .zigzagEncode32 => 0x00000000FFFFFFFF
  | .zigzagDecode32 => 0x00000000FFFFFFFF
  | .zigzagEncode64 => 0xFFFFFFFFFFFFFFFF
  | .zigzagDecode64 => 0xFFFFFFFFFFFFFFFF
  | .varintEncodeUnsigned32 => 0x00000000FFFFFFFF
  | .varintDecodeUnsigned32 => 0
  | .varintEncodeUnsigned64 => 0xFFFFFFFFFFFFFFFF
  | .varintDecodeUnsigned64 => 0

/-- One row of the opcode table (30_encoding.md R62). -/
structure OpcodeRow where
  op : Op
  value : Cmd
  mask : Cmd
  deriving DecidableEq, Repr

/-- The opcode table of 30_encoding.md R62, match and mask as printed there. -/
def opcodeTable : List OpcodeRow :=
  [ { op := .zigzagEncode32, value := 0x00000000000000000, mask := 0x70000000000000000 },
    { op := .zigzagDecode32, value := 0x10000000000000000, mask := 0x70000000000000000 },
    { op := .zigzagEncode64, value := 0x20000000000000000, mask := 0x70000000000000000 },
    { op := .zigzagDecode64, value := 0x30000000000000000, mask := 0x70000000000000000 },
    { op := .varintEncodeUnsigned32, value := 0x40000000000000000, mask := 0x70000000000000000 },
    { op := .varintDecodeUnsigned32, value := 0x50000000000000000, mask := 0x70000000000000000 },
    { op := .varintEncodeUnsigned64, value := 0x60000000000000000, mask := 0x70000000000000000 },
    { op := .varintDecodeUnsigned64, value := 0x70000000000000000, mask := 0x70000000000000000 } ]

/-- Whether a word falls under a row of the table. -/
def OpcodeRow.covers (row : OpcodeRow) (w : Cmd) : Bool := w &&& row.mask == row.value

/-- Why a number is no command word. -/
inductive DecodeError where
  /-- It has a bit at or above bit 67: the one instruction length is 67 bits (30_encoding.md R60). -/
  | widerThanCommand
  deriving DecidableEq, Repr

/-- The decoder on a number of any size: a command, or the named reason why it is none (30_encoding.md R60, R65). -/
def decodeNat (w : Nat) : Except DecodeError Instr :=
  if w < 2 ^ 67 then .ok (decode (BitVec.ofNat 67 w)) else .error .widerThanCommand

/-- The host's view of the decoder: the `nbits` low bits of `w`, every bit above them zero. The command port carries the
67-bit word whole and has no byte order (20_memory.md R44), so the number is the word. -/
def decodeTableWord (nbits w : Nat) : Option Instr :=
  match decodeNat (w % 2 ^ nbits) with
  | .ok i => some i
  | .error _ => none

end Sys2Proof
end

