-- ==== Sys2Proof/Machine/State.lean ====
section
/-! DEFINITION. State as plain data, over any type `ε` of failure values: the block (idle, busy, in reset), the two streams
of the channel, the host's moves to come and the responses given so far. The block itself keeps nothing between operations
(10_state.md R20): all but `block` is the channel's and the host's, which a model of a run must carry (10_state.md R34). -/

namespace Sys2Proof.Machine

/-- What the byte source answers to one `MemRead(RX, 1)`: any of the 256 bytes, or a failure (20_memory.md R46). -/
inductive RxAnswer (ε : Type) where
  | byte (b : Byte)
  | fail (e : ε)
  deriving DecidableEq, Repr

/-- What the byte sink answers to one `MemWrite(TX, n, buf)`: all bytes taken, or a failure after a prefix of `k` bytes
(20_memory.md R48, R49). A `k` above `n` stands for `n` (log 6). -/
inductive TxAnswer (ε : Type) where
  | accept
  | fail (k : Nat) (e : ε)
  deriving DecidableEq, Repr

/-- The state of the byte source `RX`: what remains to be read and how it will answer (10_state.md R34). -/
structure Source (ε : Type) where
  /-- The answers to the coming reads, next first. -/
  answers : List (RxAnswer ε)
  /-- What every read after those gets: always this answer, or no answer ever (70_reset_and_hazards.md R178; log 4). -/
  after : Option (RxAnswer ε)
  deriving DecidableEq, Repr

/-- The state of the byte sink `TX`: what has been written so far (10_state.md R34) and how it will answer. -/
structure Sink (ε : Type) where
  /-- The bytes it has taken, first byte first. -/
  written : List Byte
  /-- The answers to the coming writes, next first. -/
  answers : List (TxAnswer ε)
  /-- What every write after those gets: always this answer, or no answer ever (70_reset_and_hazards.md R178; log 4). -/
  after : Option (TxAnswer ε)
  deriving DecidableEq, Repr

/-- What a varint encoder of width `W` holds while it runs (10_state.md R30). -/
structure EncState (W : Nat) where
  /-- The shifting value. -/
  v : BitVec W
  /-- The index of the byte being formed. -/
  i : Nat
  /-- The bytes formed so far, `buf[0]` first. -/
  buf : List Byte
  deriving DecidableEq, Repr

/-- What a varint decoder of width `W` holds while it runs (10_state.md R31). -/
structure DecState (W : Nat) where
  /-- The accumulator. -/
  acc : BitVec W
  /-- The iteration index. -/
  i : Nat
  /-- The byte just read; none before the first. -/
  b : Option Byte
  deriving DecidableEq, Repr

/-- An operation in flight, waiting for the channel to answer an access: an encoder for its one write, a decoder for the
read of iteration `i`. A zigzag operation makes no access and is never in flight between steps (10_state.md R32). -/
inductive InFlight where
  | encode32 (e : EncState 32)
  | encode64 (e : EncState 64)
  | decode32 (d : DecState 32)
  | decode64 (d : DecState 64)
  deriving DecidableEq, Repr

/-- The block: idle or busy with exactly one operation (10_state.md R33), or held by the reset input
(70_reset_and_hazards.md R170). -/
inductive Block where
  | idle
  | busy (op : InFlight)
  | inReset
  deriving DecidableEq, Repr

/-- A response (10_state.md R28): the sum type that 30_encoding.md R66 asks a model to use. -/
inductive Response (ε : Type) where
  | ok (r : Port) (n : Count)
  | fail (e : ε)
  deriving DecidableEq, Repr

/-- What the host does, one move at a time (70_reset_and_hazards.md R183). -/
inductive HostMove (ε : Type) where
  /-- Present a command: `op` and `a` (10_state.md R27). -/
  | issue (w : Cmd)
  /-- Serve a coming read of `RX` (20_memory.md R46). -/
  | serveRx (a : RxAnswer ε)
  /-- Serve a coming write of `TX` (20_memory.md R49). -/
  | serveTx (a : TxAnswer ε)
  /-- Between commands: refill, rewind or rewire `RX`. -/
  | connectRx (rx : Source ε)
  /-- Between commands: read out, rewind or rewire `TX`. -/
  | connectTx (tx : Sink ε)
  /-- Between commands: join the streams, so that the bytes in `TX` become the content of `RX`, which then reports `e` when
  they are used up (20_memory.md R54, R55, 95_test_vectors.md part 3). -/
  | loopback (e : ε)
  /-- Assert the reset input; `k` is how many bytes of a write in progress had reached the sink
  (70_reset_and_hazards.md R171). -/
  | assertReset (k : Nat)
  /-- Release the reset input (70_reset_and_hazards.md R170). -/
  | releaseReset
  deriving DecidableEq, Repr

/-- The state of a run. Its argument `ε` is the open type of failure values that the spec calls `Err` (00_scope.md R9,
92_eei_decisions.md D9, 93_implementation_defined.md U13): every operation of the machine is written for any such type. -/
structure State.At (ε : Type) where
  /-- The block. -/
  block : Block
  /-- The byte source. -/
  rx : Source ε
  /-- The byte sink. -/
  tx : Sink ε
  /-- The host's moves to come, next first: the host's bookkeeping, not the block's (10_state.md R22; log 10). -/
  agenda : List (HostMove ε)
  /-- The responses given so far, oldest first (70_reset_and_hazards.md R182). -/
  responses : List (Response ε)
  deriving DecidableEq, Repr

/-- Why the machine stops: never. The one exception of the spec, `ChannelFailure`, is a response and the run goes on
(60_exceptions.md R152, R158); nobody raises a fault, which is safe since no behaviour is left out by it. -/
inductive Fault where
  deriving DecidableEq, Repr

/-- Why a command has no meaning. -/
inductive Refusal where
  /-- The command of this mnemonic is not modelled. Raised by no arm of `exec`; it is safe, since a stop proves nothing. -/
  | notModelled (mnemonic : String)
  deriving DecidableEq, Repr

/-- The state of a run at the carrier `Err`: the host's interface has one state type (log 2). What the machine does at any
other type of failure values follows from what it does here (the statement `FailureValuesPassUnchanged`). -/
abbrev State := State.At Err

/-- The list channel's source: these bytes, then its failure value `e` for ever; the spec's fixture has `EndOfData` for `e`
(20_memory.md R55). -/
def Source.ofBytes {ε : Type} (e : ε) (bs : List Byte) : Source ε := { answers := bs.map .byte, after := some (.fail e) }

/-- The list channel's sink: it holds these bytes and accepts every write (20_memory.md R55). -/
def Sink.ofBytes {ε : Type} (bs : List Byte) : Sink ε := { written := bs, answers := [], after := some .accept }

/-- Right after reset: the block is idle (10_state.md R37). The streams and the host's lists are not reset by the block;
their values here are DESIGN CHOICE, log 5 (unsafe for a claim that rests on them): an empty list channel, a host with no
move to make and no response received. -/
def State.reset : State :=
  { block := .idle, rx := Source.ofBytes .endOfData [], tx := Sink.ofBytes [], agenda := [], responses := [] }

end Sys2Proof.Machine
end

