-- ==== Sys2Proof/Machine/Operands.lean ====
section
/-! DEFINITION. The parameters of a width, the integer a pattern stands for, and the filling of the result port. -/

namespace Sys2Proof.Machine

/-- The machine's parameters: profile P-DOC, `MAXB64 = 9` and `LASTMASK64 = 0xFF` (00_scope.md R6, R7, R8; log 1). The
model takes the profile as an argument (`execAt`, `stepAt`); this is the one at which the host's interface is met. -/
def profile : Profile := Profile.pDoc

/-- `MAXB(W)`, the most bytes one value takes on the wire (00_scope.md R6). -/
def maxB (p : Profile) : Width → Nat
  | .w32 => 5
  | .w64 => p.maxB64

/-- `LASTMASK(W)`, the mask of the byte at index `MAXB(W) - 1` (00_scope.md R7). -/
def lastMask (p : Profile) : Width → Byte
  | .w32 => 0x7F
  | .w64 => p.lastMask64

/-- `S_W(p)`, the signed integer a pattern stands for, two's complement (00_scope.md R11; PRESUMED for the ports,
log 12). -/
def sval {W : Nat} (p : BitVec W) : Int := p.toInt

/-- `trunc_W(z)`, the `W` low bits of the integer `z` (00_scope.md R12). -/
def truncW (W : Nat) (z : Int) : BitVec W := BitVec.ofInt W z

/-- `zext_64(v)`, a value on the result port with zeros above it (10_state.md R29). -/
def toPort {W : Nat} (v : BitVec W) : Port := v.setWidth 64

/-- A byte count on the port `n` (10_state.md R29). -/
def toCount (n : Nat) : Count := BitVec.ofNat 4 n

/-- `zext_8(v[6:0])`, the payload of the byte being formed, bit 7 clear (41_varint_encode.md R101). -/
def payload {W : Nat} (v : BitVec W) : Byte := (v.extractLsb' 0 7).setWidth 8

/-- The continuation bit, bit 7 (30_encoding.md R67). -/
def continues (b : Byte) : Bool := b.getLsbD 7

end Sys2Proof.Machine
end

