-- ==== Sys2Proof/Machine/Flags.lean ====
section
/-! DEFINITION. The hardware has no flags (10_state.md R23). The only thing like one is the kind of a response, the
status wire `st`; with it stands the whole response port `RSP` (30_encoding.md R66). -/

namespace Sys2Proof.Machine

variable {ε : Type}

/-- The status wire: 0 for `Ok`, 1 for `Fail` (30_encoding.md R66, 60_exceptions.md R151). -/
def Response.st : Response ε → BitVec 1
  | .ok _ _ => 0
  | .fail _ => 1

/-- The wires of the response port (30_encoding.md R66). -/
structure Rsp (ε : Type) where
  st : BitVec 1
  r : Port
  n : Count
  e : ε
  deriving DecidableEq, Repr

/-- The wires while response number `k` stands on the port. A wire that is not valid in this kind of response carries a
free value (93_implementation_defined.md U6; log 14). -/
def Response.wires [Inhabited ε] (k : Nat) : Response ε → Rsp ε
  | .ok r n => { st := 0, r := r, n := n, e := Config.okE ε k }
  | .fail e => { st := 1, r := Config.failR k, n := Config.failN k, e := e }

end Sys2Proof.Machine
end

