-- ==== Sys2Proof/Machine/Ops.lean ====
section
/-! DEFINITION. The shared operations: the two accesses to the channel, the response, the one exception, the acceptance
of a command, and reset. -/

namespace Sys2Proof.Machine

variable {ε : Type}

/-- What comes of a `MemRead(RX, 1)`: a byte, a failure, or no answer yet. -/
inductive ReadResult (ε : Type) where
  | byte (b : Byte) (rx : Source ε)
  | failed (e : ε) (rx : Source ε)
  | noAnswer
  deriving DecidableEq, Repr

/-- What comes of a `MemWrite(TX, n, buf)`: success, a failure, or no answer yet. -/
inductive WriteResult (ε : Type) where
  | done (tx : Sink ε)
  | failed (e : ε) (tx : Sink ε)
  | noAnswer
  deriving DecidableEq, Repr

/-- One answer of the source as the outcome of a read that leaves `rx`. -/
def readAnswer (a : RxAnswer ε) (rx : Source ε) : ReadResult ε :=
  match a with
  | .byte b => .byte b rx
  | .fail e => .failed e rx

/-- `MemRead(RX, 1)` (20_memory.md R42): the next answer of the source, which is consumed with its byte (R47). -/
def memRead (rx : Source ε) : ReadResult ε :=
  match rx.answers with
  | a :: as => readAnswer a { rx with answers := as }
  | [] =>
    match rx.after with
    | some a => readAnswer a rx
    | none => .noAnswer

/-- One answer of the sink as the outcome of a write of `buf`: all of it appended, or a prefix of `k` bytes
(20_memory.md R43, R49). -/
def writeAnswer (a : TxAnswer ε) (buf : List Byte) (tx : Sink ε) : WriteResult ε :=
  match a with
  | .accept => .done { tx with written := tx.written ++ buf }
  | .fail k e => .failed e { tx with written := tx.written ++ buf.take k }

/-- `MemWrite(TX, n, buf[0..n-1])` (20_memory.md R43): one call, one answer of the sink. -/
def memWrite (buf : List Byte) (tx : Sink ε) : WriteResult ε :=
  match tx.answers with
  | a :: as => writeAnswer a buf { tx with answers := as }
  | [] =>
    match tx.after with
    | some a => writeAnswer a buf tx
    | none => .noAnswer

/-- Give a response: the operation is over and the block is idle (10_state.md R33). -/
def respond (x : Response ε) (s : State.At ε) : State.At ε := { s with block := .idle, responses := s.responses ++ [x] }

/-- `respond Ok(r, n)` (00_scope.md R13). -/
def respondOk (r : Port) (n : Count) (s : State.At ε) : State.At ε := respond (.ok r n) s

/-- TAKING THE ONE EXCEPTION, `raise ChannelFailure(e)` (60_exceptions.md R152): the operation ends at once, the response
is `Fail(e)` with `e` unchanged, the block is idle. Nothing is saved, no mode changes, and there is no return
(60_exceptions.md R155, R158). -/
def raiseChannelFailure (e : ε) (s : State.At ε) : State.At ε := respond (.fail e) s

/-- An operation that waits for an answer of the channel keeps the block busy (10_state.md R33,
70_reset_and_hazards.md R178). -/
def await (op : InFlight) (s : State.At ε) : State.At ε := { s with block := .busy op }

/-- A command the block does not accept stays on the command port, neither lost nor executed
(70_reset_and_hazards.md R176; log 8). -/
def holdOff (i : Instr) (s : State.At ε) : State.At ε := { s with agenda := .issue (encode i) :: s.agenda }

/-- The acceptance of a command: an idle block runs it, a busy block or one in reset holds it off
(70_reset_and_hazards.md R170, R176). -/
def whenIdle (i : Instr) (run : State.At ε → State.At ε) (s : State.At ε) : Host.Outcome (State.At ε) Fault Refusal :=
  .next (match s.block with
    | .idle => run s
    | .busy _ => holdOff i s
    | .inReset => holdOff i s)

/-- A write in progress that is abandoned leaves a prefix of `k` bytes in `TX` (70_reset_and_hazards.md R171). -/
def abandonWrite (buf : List Byte) (k : Nat) (tx : Sink ε) : Sink ε := { tx with written := tx.written ++ buf.take k }

/-- Assert the reset input (70_reset_and_hazards.md R170, R171): an operation in flight is abandoned and never responds,
and its accesses so far keep their effect. DESIGN CHOICE, log 16: R171 does not say what becomes of a decoder's read that is
still unanswered; here it is withdrawn, so that `rx` stays as it is, no byte is taken for it later, and an answer served
after the reset goes to the next operation's read. An unanswered write is withdrawn likewise, but for its prefix of `k`
bytes. -/
def assertReset (k : Nat) (s : State.At ε) : State.At ε :=
  match s.block with
  | .busy (.encode32 e) => { s with block := .inReset, tx := abandonWrite e.buf k s.tx }
  | .busy (.encode64 e) => { s with block := .inReset, tx := abandonWrite e.buf k s.tx }
  | .busy (.decode32 _) => { s with block := .inReset }
  | .busy (.decode64 _) => { s with block := .inReset }
  | .idle => { s with block := .inReset }
  | .inReset => { s with block := .inReset }

/-- Release the reset input: a block held in reset is idle (70_reset_and_hazards.md R170). -/
def releaseReset (s : State.At ε) : State.At ε :=
  match s.block with
  | .inReset => { s with block := .idle }
  | .idle => s
  | .busy _ => s

end Sys2Proof.Machine
end

