-- ==== Sys2Proof/Machine/VarintDecode.lean ====
section
/-! DEFINITION. The procedure `DEC(W)` and the two unsigned varint decoders (42_varint_decode.md). -/

namespace Sys2Proof.Machine

variable {ε : Type}

/-- A decoder at its start: `acc <- 0`, `i <- 0`, no byte read (42_varint_decode.md R121, 10_state.md R31). -/
def DecState.start (W : Nat) : DecState W := { acc := 0, i := 0, b := none }

/-- The mask of the byte at index `i`: `last` at the last possible index, else 0x7F (42_varint_decode.md R121). -/
def decMask (bound : Nat) (last : Byte) (i : Nat) : Byte := if i + 1 = bound then last else 0x7F

/-- One byte taken into the accumulator at bit offset `7 * i`; bits at or above `W` are dropped
(42_varint_decode.md R121). -/
def decTake {W : Nat} (bound : Nat) (last : Byte) (b : Byte) (d : DecState W) : DecState W :=
  { acc := d.acc ||| ((b &&& decMask bound last d.i).setWidth W <<< (7 * d.i)), i := d.i, b := some b }

/-- How a run of the decoder's loop ends: with the value, with a failed read, or waiting for a read to be answered. -/
inductive DecOutcome (W : Nat) (ε : Type) where
  | value (acc : BitVec W) (rx : Source ε)
  | failed (e : ε) (rx : Source ε)
  | waiting (d : DecState W) (rx : Source ε)
  deriving DecidableEq, Repr

/-- The loop of `DEC` (42_varint_decode.md R121), bounded at `bound = MAXB(W)` passes; `fuel` is how many passes are left.
It leaves at a byte with bit 7 clear or at index `bound - 1`, and nowhere else (R125). -/
def decLoop {W : Nat} (bound : Nat) (last : Byte) : Nat → DecState W → Source ε → DecOutcome W ε
  | 0, d, rx => .value d.acc rx
  | fuel + 1, d, rx =>
    match memRead rx with
    | .byte b rx' =>
      let d' := decTake bound last b d
      if continues b = false ∨ d.i + 1 = bound then .value d'.acc rx'
      else decLoop bound last fuel { d' with i := d.i + 1 } rx'
    | .failed e rx' => .failed e rx'
    | .noAnswer => .waiting d rx

/-- A decoder from where it stands to its response, or to a read the source does not answer
(42_varint_decode.md R121, R126). -/
def decRun {W : Nat} (pending : DecState W → InFlight) (bound : Nat) (last : Byte) (d : DecState W) (s : State.At ε) : State.At ε :=
  match decLoop bound last (bound - d.i) d s.rx with
  | .value acc rx => respondOk (toPort acc) 0 { s with rx := rx }
  | .failed e rx => raiseChannelFailure e { s with rx := rx }
  | .waiting d' rx => await (pending d') { s with rx := rx }

/-- `varint_decode_unsigned_32` at a profile, from a decoder state (42_varint_decode.md R122). -/
def varintDecode32 (p : Profile) (d : DecState 32) (s : State.At ε) : State.At ε :=
  decRun .decode32 (maxB p .w32) (lastMask p .w32) d s

/-- `varint_decode_unsigned_64` at a profile, from a decoder state (42_varint_decode.md R123). -/
def varintDecode64 (p : Profile) (d : DecState 64) (s : State.At ε) : State.At ε :=
  decRun .decode64 (maxB p .w64) (lastMask p .w64) d s

/-- `varint_decode_unsigned_32` at a profile, as a command (42_varint_decode.md R122). -/
def execVarintDecodeUnsigned32At (p : Profile) (s : State.At ε) : Host.Outcome (State.At ε) Fault Refusal :=
  whenIdle .varintDecodeUnsigned32 (varintDecode32 p (DecState.start 32)) s

/-- `varint_decode_unsigned_32` (42_varint_decode.md R122). -/
def execVarintDecodeUnsigned32 (s : State.At ε) : Host.Outcome (State.At ε) Fault Refusal :=
  execVarintDecodeUnsigned32At profile s

/-- `varint_decode_unsigned_64` at a profile, as a command (42_varint_decode.md R123). -/
def execVarintDecodeUnsigned64At (p : Profile) (s : State.At ε) : Host.Outcome (State.At ε) Fault Refusal :=
  whenIdle .varintDecodeUnsigned64 (varintDecode64 p (DecState.start 64)) s

/-- `varint_decode_unsigned_64` (42_varint_decode.md R123). -/
def execVarintDecodeUnsigned64 (s : State.At ε) : Host.Outcome (State.At ε) Fault Refusal :=
  execVarintDecodeUnsigned64At profile s

end Sys2Proof.Machine
end

