-- ==== Sys2Proof/Machine/VarintEncode.lean ====
section
/-! DEFINITION. The procedure `ENC(W, x)` and the two unsigned varint encoders (41_varint_encode.md). -/

namespace Sys2Proof.Machine

variable {ε : Type}

/-- An encoder at its start: `v <- x`, `i <- 0`, nothing in the buffer (41_varint_encode.md R101). -/
def EncState.start {W : Nat} (x : BitVec W) : EncState W := { v := x, i := 0, buf := [] }

/-- The byte formed in one pass: the low 7 bits, with the continuation bit if more value remains
(41_varint_encode.md R101). -/
def encByte {W : Nat} (v : BitVec W) : Byte := if v >>> 7 = 0 then payload v else payload v ||| 0x80

/-- The loop of `ENC` (41_varint_encode.md R101), bounded at `bound = MAXB(W)` passes; `fuel` is how many passes are left. -/
def encLoop {W : Nat} (bound : Nat) : Nat → EncState W → EncState W
  | 0, e => e
  | fuel + 1, e =>
    let e' : EncState W := { v := e.v >>> 7, i := e.i, buf := e.buf ++ [encByte e.v] }
    if e'.v = 0 ∨ e.i + 1 = bound then e' else encLoop bound fuel { e' with i := e.i + 1 }

/-- The encoder after its loop: `buf` holds the whole wire representation, `i` the index of its last byte. -/
def encForm {W : Nat} (bound : Nat) (x : BitVec W) : EncState W := encLoop bound bound (EncState.start x)

/-- The one `MemWrite` of an encoder and its response (41_varint_encode.md R101, R107, R108). `pending` says how the block
holds the encoder while the sink does not answer. DESIGN CHOICE, log 17: the spec calls the write not atomic (20_memory.md R48)
and does not say what `TX` holds while it is started but not answered; here no byte of it is in `TX` until the answer, or until
the reset that abandons it. -/
def encFinish {W : Nat} (pending : EncState W → InFlight) (e : EncState W) (s : State.At ε) : State.At ε :=
  match memWrite e.buf s.tx with
  | .done tx => respondOk 0 (toCount (e.i + 1)) { s with tx := tx }
  | .failed err tx => raiseChannelFailure err { s with tx := tx }
  | .noAnswer => await (pending e) s

/-- `varint_encode_unsigned_32` at a profile (41_varint_encode.md R102). -/
def varintEncode32 (p : Profile) (x : BitVec 32) (s : State.At ε) : State.At ε :=
  encFinish .encode32 (encForm (maxB p .w32) x) s

/-- `varint_encode_unsigned_64` at a profile (41_varint_encode.md R103). -/
def varintEncode64 (p : Profile) (x : BitVec 64) (s : State.At ε) : State.At ε :=
  encFinish .encode64 (encForm (maxB p .w64) x) s

/-- `varint_encode_unsigned_32` at a profile, as a command (41_varint_encode.md R102). -/
def execVarintEncodeUnsigned32At (p : Profile) (x : BitVec 32) (s : State.At ε) : Host.Outcome (State.At ε) Fault Refusal :=
  whenIdle (.varintEncodeUnsigned32 x) (varintEncode32 p x) s

/-- `varint_encode_unsigned_32` (41_varint_encode.md R102). -/
def execVarintEncodeUnsigned32 (x : BitVec 32) (s : State.At ε) : Host.Outcome (State.At ε) Fault Refusal :=
  execVarintEncodeUnsigned32At profile x s

/-- `varint_encode_unsigned_64` at a profile, as a command (41_varint_encode.md R103). -/
def execVarintEncodeUnsigned64At (p : Profile) (x : BitVec 64) (s : State.At ε) : Host.Outcome (State.At ε) Fault Refusal :=
  whenIdle (.varintEncodeUnsigned64 x) (varintEncode64 p x) s

/-- `varint_encode_unsigned_64` (41_varint_encode.md R103). -/
def execVarintEncodeUnsigned64 (x : BitVec 64) (s : State.At ε) : Host.Outcome (State.At ε) Fault Refusal :=
  execVarintEncodeUnsigned64At profile x s

end Sys2Proof.Machine
end

