-- ==== Sys2Proof/Machine/Zigzag.lean ====
section
/-! DEFINITION. The zigzag transform and its four commands (40_zigzag.md). -/

namespace Sys2Proof.Machine

variable {ε : Type}

/-- The transform of a signed integer, in exact integers (40_zigzag.md R81, R83). -/
def zigzag (s : Int) : Int := if 0 ≤ s then 2 * s else 2 * (-s) - 1

/-- The inverse on an unsigned integer, in exact integers: `h` is `u >> 1` (40_zigzag.md R82, R84). -/
def unzigzag (u : Nat) : Int := if u % 2 = 0 then ((u / 2 : Nat) : Int) else -((u / 2 : Nat) : Int) - 1

/-- Encode a `W`-bit two's-complement pattern. -/
def zigzagEncode {W : Nat} (x : BitVec W) : BitVec W := truncW W (zigzag (sval x))

/-- Decode to a `W`-bit two's-complement pattern. -/
def zigzagDecode {W : Nat} (u : BitVec W) : BitVec W := truncW W (unzigzag u.toNat)

/-- The encoding in the bitwise form of 40_zigzag.md R87. -/
def zigzagEncodeBits {W : Nat} (x : BitVec W) : BitVec W := (x <<< 1) ^^^ x.sshiftRight (W - 1)

/-- The decoding in the bitwise form of 40_zigzag.md R87. -/
def zigzagDecodeBits {W : Nat} (u : BitVec W) : BitVec W := (u >>> 1) ^^^ (u.extractLsb' 0 1).signExtend W

/-- `zigzag_encode_32` (40_zigzag.md R81). -/
def execZigzagEncode32 (x : BitVec 32) (s : State.At ε) : Host.Outcome (State.At ε) Fault Refusal :=
  whenIdle (.zigzagEncode32 x) (respondOk (toPort (zigzagEncode x)) 0) s

/-- `zigzag_decode_32` (40_zigzag.md R82). -/
def execZigzagDecode32 (u : BitVec 32) (s : State.At ε) : Host.Outcome (State.At ε) Fault Refusal :=
  whenIdle (.zigzagDecode32 u) (respondOk (toPort (zigzagDecode u)) 0) s

/-- `zigzag_encode_64` (40_zigzag.md R83). -/
def execZigzagEncode64 (x : BitVec 64) (s : State.At ε) : Host.Outcome (State.At ε) Fault Refusal :=
  whenIdle (.zigzagEncode64 x) (respondOk (toPort (zigzagEncode x)) 0) s

/-- `zigzag_decode_64` (40_zigzag.md R84). -/
def execZigzagDecode64 (u : BitVec 64) (s : State.At ε) : Host.Outcome (State.At ε) Fault Refusal :=
  whenIdle (.zigzagDecode64 u) (respondOk (toPort (zigzagDecode u)) 0) s

end Sys2Proof.Machine
end

