-- ==== Sys2Proof/Machine/Dispatch.lean ====
section
/-! DEFINITION. One arm per constructor of `Instr`. One `exec` is a whole operation, up to its response or to an access the
channel does not answer (10_state.md R33, 70_reset_and_hazards.md R179; DEDUCED, log 13). -/

namespace Sys2Proof.Machine

def exec (i : Instr) (s : State) : Host.Outcome State Fault Refusal :=
  match i with
  | .zigzagEncode32 x => Sys2Proof.Machine.execZigzagEncode32 x s
  | .zigzagDecode32 u => Sys2Proof.Machine.execZigzagDecode32 u s
  | .zigzagEncode64 x => Sys2Proof.Machine.execZigzagEncode64 x s
  | .zigzagDecode64 u => Sys2Proof.Machine.execZigzagDecode64 u s
  | .varintEncodeUnsigned32 x => Sys2Proof.Machine.execVarintEncodeUnsigned32 x s
  | .varintDecodeUnsigned32 => Sys2Proof.Machine.execVarintDecodeUnsigned32 s
  | .varintEncodeUnsigned64 x => Sys2Proof.Machine.execVarintEncodeUnsigned64 x s
  | .varintDecodeUnsigned64 => Sys2Proof.Machine.execVarintDecodeUnsigned64 s

end Sys2Proof.Machine
end

