-- ==== Sys2Proof/Machine/HostMoves.lean ====
section
/-! DEFINITION. What happens next: an operation in flight goes on when the channel has answered it, an idle block takes a
command, or the host makes another of its moves (70_reset_and_hazards.md R183). `step` only calls what stands here. -/

namespace Sys2Proof.Machine

variable {ε : Type}

/-- An operation in flight goes on from where it waited, at the profile at which it began (00_scope.md R6, R7). -/
def resume (p : Profile) (op : InFlight) (s : State.At ε) : State.At ε :=
  match op with
  | .encode32 e => encFinish .encode32 e s
  | .encode64 e => encFinish .encode64 e s
  | .decode32 d => varintDecode32 p d s
  | .decode64 d => varintDecode64 p d s

/-- Whether the source will answer the next read. -/
def Source.answering (rx : Source ε) : Bool :=
  match memRead rx with
  | .byte _ _ => true
  | .failed _ _ => true
  | .noAnswer => false

/-- Whether the sink will answer the next write. -/
def Sink.answering (tx : Sink ε) : Bool :=
  match memWrite [] tx with
  | .done _ => true
  | .failed _ _ => true
  | .noAnswer => false

/-- Whether the access an operation waits for has been answered. -/
def answered (op : InFlight) (s : State.At ε) : Bool :=
  match op with
  | .encode32 _ => s.tx.answering
  | .encode64 _ => s.tx.answering
  | .decode32 _ => s.rx.answering
  | .decode64 _ => s.rx.answering

/-- The host answers one more read, after those it has already answered. -/
def serveRx (a : RxAnswer ε) (s : State.At ε) : State.At ε := { s with rx := { s.rx with answers := s.rx.answers ++ [a] } }

/-- The host answers one more write, after those it has already answered. -/
def serveTx (a : TxAnswer ε) (s : State.At ε) : State.At ε := { s with tx := { s.tx with answers := s.tx.answers ++ [a] } }

/-- The host joins the streams: the bytes in `TX` become the content of `RX`, as a list channel whose failure value is `e`
(20_memory.md R54, R55). -/
def loopback (e : ε) (s : State.At ε) : State.At ε := { s with rx := Source.ofBytes e s.tx.written }

/-- What a state does next. -/
inductive Action (ε : Type) where
  /-- The operation in flight goes on. -/
  | resume (op : InFlight)
  /-- The idle block accepts a command, in the state without it on the port. -/
  | run (i : Instr) (s : State.At ε)
  /-- The host has made a move, or nothing happens. -/
  | move (s : State.At ε)
  deriving DecidableEq, Repr

/-- The host's next move while the block is idle: any (70_reset_and_hazards.md R183). With no move left the run is over
(R182) and nothing happens. -/
def moveIdle (s : State.At ε) : Action ε :=
  match s.agenda with
  | .issue w :: rest => .run (decode w) { s with agenda := rest }
  | .serveRx a :: rest => .move (serveRx a { s with agenda := rest })
  | .serveTx a :: rest => .move (serveTx a { s with agenda := rest })
  | .connectRx rx :: rest => .move { s with agenda := rest, rx := rx }
  | .connectTx tx :: rest => .move { s with agenda := rest, tx := tx }
  | .loopback e :: rest => .move (loopback e { s with agenda := rest })
  | .assertReset k :: rest => .move (assertReset k { s with agenda := rest })
  | .releaseReset :: rest => .move (releaseReset { s with agenda := rest })
  | [] => .move s

/-- The host's next move while an operation waits for the channel: it may serve the streams and reset. A command is held
off (70_reset_and_hazards.md R176), and a move that is for between commands waits for the response (log 11): until one of
the other moves comes, the block stays busy (R178; log 7). DESIGN CHOICE, log 8: while a held-off command stands first on
the agenda the host makes none of its later moves, so that such a state steps to itself. -/
def moveBusy (s : State.At ε) : Action ε :=
  match s.agenda with
  | .serveRx a :: rest => .move (serveRx a { s with agenda := rest })
  | .serveTx a :: rest => .move (serveTx a { s with agenda := rest })
  | .assertReset k :: rest => .move (assertReset k { s with agenda := rest })
  | .releaseReset :: rest => .move (releaseReset { s with agenda := rest })
  | .issue _ :: _ => .move s
  | .connectRx _ :: _ => .move s
  | .connectTx _ :: _ => .move s
  | .loopback _ :: _ => .move s
  | [] => .move s

/-- The host's next move while reset is asserted: any but a command, which is not accepted (70_reset_and_hazards.md R170).
DESIGN CHOICE, log 8: R170 does not say what becomes of a command presented then; here it stays first on the agenda and
keeps the host from every later move, `releaseReset` included, so that such a state steps to itself for ever. DESIGN CHOICE,
log 16: an answer served in reset is for the next operation's access, not for one that the reset abandoned. -/
def moveInReset (s : State.At ε) : Action ε :=
  match s.agenda with
  | .issue _ :: _ => .move s
  | .serveRx a :: rest => .move (serveRx a { s with agenda := rest })
  | .serveTx a :: rest => .move (serveTx a { s with agenda := rest })
  | .connectRx rx :: rest => .move { s with agenda := rest, rx := rx }
  | .connectTx tx :: rest => .move { s with agenda := rest, tx := tx }
  | .loopback e :: rest => .move (loopback e { s with agenda := rest })
  | .assertReset k :: rest => .move (assertReset k { s with agenda := rest })
  | .releaseReset :: rest => .move (releaseReset { s with agenda := rest })
  | [] => .move s

/-- What happens next in a state. An access already answered completes before the host's next move (log 9). -/
def nextAction (s : State.At ε) : Action ε :=
  match s.block with
  | .idle => moveIdle s
  | .busy op => if answered op s then .resume op else moveBusy s
  | .inReset => moveInReset s

/-- A state in which the block takes the command `w` next: it is idle, and `w` stands on the command port. -/
def presentCommand (w : Cmd) (s : State.At ε) : State.At ε := { s with block := .idle, agenda := .issue w :: s.agenda }

end Sys2Proof.Machine
end

