-- ==== Sys2Proof/Machine/Step.lean ====
section
/-! DEFINITION. One step of a run. -/

namespace Sys2Proof.Machine

/-- One step: the operation in flight goes on, or the idle block executes a command, or the host makes a move. -/
def step (s : State) : Host.Outcome State Fault Refusal :=
  match nextAction s with
  | .resume op => .next (resume profile op s)
  | .run i t => exec i t
  | .move t => .next t

/-- The state with the command word `w` (its bits at or above `nbits` zero) presented next. Nothing is fetched: the host
issues commands (10_state.md R22), so this stands for the host issuing one (log 10). -/
def State.withFetchWord (s : State) (nbits w : Nat) : State := presentCommand (BitVec.ofNat 67 (w % 2 ^ nbits)) s

end Sys2Proof.Machine
end

