-- ==== Sys2Proof/Machine/Assembler.lean ====
section
/-! DEFINITION. The assembler's notation: names and aliases of the operations, the pattern a literal stands for, and the
command of a line (30_encoding.md R73, R74). Notation only: no rule of the block reads it. -/

namespace Sys2Proof.Machine

/-- The mnemonic of an operation (30_encoding.md R62, R73). -/
def mnemonic : Op → String
  | .zigzagEncode32 => "zigzag_encode_32"
  | .zigzagDecode32 => "zigzag_decode_32"
  | .zigzagEncode64 => "zigzag_encode_64"
  | .zigzagDecode64 => "zigzag_decode_64"
  | .varintEncodeUnsigned32 => "varint_encode_unsigned_32"
  | .varintDecodeUnsigned32 => "varint_decode_unsigned_32"
  | .varintEncodeUnsigned64 => "varint_encode_unsigned_64"
  | .varintDecodeUnsigned64 => "varint_decode_unsigned_64"

/-- The document's own names, which an assembler may accept (30_encoding.md R73, 00_scope.md R16). -/
def aliases : List (String × Op) :=
  [ ("write_var_u32", .varintEncodeUnsigned32), ("write_var_u64", .varintEncodeUnsigned64),
    ("read_var_u32", .varintDecodeUnsigned32), ("read_var_u64", .varintDecodeUnsigned64) ]

/-- Every name the assembler knows. -/
def names : List (String × Op) :=
  ([.zigzagEncode32, .zigzagDecode32, .zigzagEncode64, .zigzagDecode64, .varintEncodeUnsigned32,
    .varintDecodeUnsigned32, .varintEncodeUnsigned64, .varintDecodeUnsigned64].map fun op => (mnemonic op, op)) ++ aliases

/-- The operation a name stands for. -/
def opOfName (name : String) : Option Op := names.lookup name

/-- The pattern of `W` bits a literal stands for, two's complement for a negative one (30_encoding.md R74). -/
def literalPattern (W : Nat) : Literal → BitVec W
  | .hex p => BitVec.ofNat W p
  | .dec z => truncW W z

/-- The pattern of a line's operand; a line without one has `a = 0` (30_encoding.md R74). -/
def operandPattern (W : Nat) : Option Literal → BitVec W
  | some l => literalPattern W l
  | none => 0

/-- The command of an operation with this operand. -/
def commandOf (op : Op) (l : Option Literal) : Instr :=
  match op with
  | .zigzagEncode32 => .zigzagEncode32 (operandPattern 32 l)
  | .zigzagDecode32 => .zigzagDecode32 (operandPattern 32 l)
  | .zigzagEncode64 => .zigzagEncode64 (operandPattern 64 l)
  | .zigzagDecode64 => .zigzagDecode64 (operandPattern 64 l)
  | .varintEncodeUnsigned32 => .varintEncodeUnsigned32 (operandPattern 32 l)
  | .varintDecodeUnsigned32 => .varintDecodeUnsigned32
  | .varintEncodeUnsigned64 => .varintEncodeUnsigned64 (operandPattern 64 l)
  | .varintDecodeUnsigned64 => .varintDecodeUnsigned64

/-- The command word of a line; a line that is not well formed is an assembler error (30_encoding.md R74). -/
def assemble (c : CommandLine) : Option Cmd :=
  if c.wellFormed then some (encode (commandOf c.op c.operand)) else none

end Sys2Proof.Machine
end

