-- ==== Sys2Proof/Machine/Parameters.lean ====
section
/-! DEFINITION. The machine at any value of the parameters that the spec leaves as arguments of a model: the profile, `MAXB64`
with `LASTMASK64` (00_scope.md R6, R7, R8, 93_implementation_defined.md U11), and the type of failure values (00_scope.md R9,
92_eei_decisions.md D9, U13). `exec` and `step` are its instance at `profile` and `Err`. -/

namespace Sys2Proof.Machine

variable {ε : Type}

/-- The meanings that `exec` calls, at the profile `p` and the failure type `ε`. A zigzag command reads no parameter. -/
def execAt (p : Profile) (i : Instr) (s : State.At ε) : Host.Outcome (State.At ε) Fault Refusal :=
  match i with
  | .zigzagEncode32 x => execZigzagEncode32 x s
  | .zigzagDecode32 u => execZigzagDecode32 u s
  | .zigzagEncode64 x => execZigzagEncode64 x s
  | .zigzagDecode64 u => execZigzagDecode64 u s
  | .varintEncodeUnsigned32 x => execVarintEncodeUnsigned32At p x s
  | .varintDecodeUnsigned32 => execVarintDecodeUnsigned32At p s
  | .varintEncodeUnsigned64 x => execVarintEncodeUnsigned64At p x s
  | .varintDecodeUnsigned64 => execVarintDecodeUnsigned64At p s

/-- One step of a run at the profile `p` and the failure type `ε`. -/
def stepAt (p : Profile) (s : State.At ε) : Host.Outcome (State.At ε) Fault Refusal :=
  match nextAction s with
  | .resume op => .next (resume p op s)
  | .run i t => execAt p i t
  | .move t => .next t

end Sys2Proof.Machine
end

