-- ==== Sys2Proof/Machine/Pseudo.lean ====
section
/-! DEFINITION. The four signed pseudo-operations: not commands of the block, but two commands each that the host issues,
carrying the result of the first to the operand of the second (30_encoding.md R75, 43_signed_composition.md). The host waits
for each response before it goes on (70_reset_and_hazards.md R183). Everything here takes the parameters as arguments, and the
four operations of this hardware are the instances at `profile` and `Err`. -/

namespace Sys2Proof.Machine

variable {ε : Type}

/-- What the host goes on with after an outcome: a next state, if there is one. -/
def onNext (o : Host.Outcome (State.At ε) Fault Refusal) (next : State.At ε → Host.Outcome (State.At ε) Fault Refusal) :
    Host.Outcome (State.At ε) Fault Refusal :=
  match o with
  | .next t => next t
  | .fault f => .fault f
  | .refused f => .refused f

/-- At most `fuel` steps, until the block is idle. -/
def waitIdle (p : Profile) : Nat → State.At ε → Host.Outcome (State.At ε) Fault Refusal
  | 0, s => .next s
  | fuel + 1, s =>
    match s.block with
    | .idle => .next s
    | .busy _ => onNext (stepAt p s) (waitIdle p fuel)
    | .inReset => onNext (stepAt p s) (waitIdle p fuel)

/-- The host waits until the block is idle (70_reset_and_hazards.md R176), and while it waits it makes the moves on its agenda,
which serve the streams (log 18). The fuel is enough, since each step of a block that is not idle goes on with an operation
whose access has been answered or makes a move: after it the block is idle or nothing more happens. -/
def hostWait (p : Profile) (s : State.At ε) : Host.Outcome (State.At ε) Fault Refusal := waitIdle p (2 * s.agenda.length + 1) s

/-- The host issues a command and waits for the response. -/
def issueAndWait (p : Profile) (i : Instr) (s : State.At ε) : Host.Outcome (State.At ε) Fault Refusal := onNext (execAt p i s) (hostWait p)

/-- Two commands, the second issued with the result of the first (30_encoding.md R75). The host issues the first when the
block is idle, and the second only on an `Ok` of the first: after a `Fail`, or where no response has come (the access is never
answered, or a reset abandoned the operation), it stops. DESIGN CHOICE, log 18: nor does it begin while the block does not
become idle. -/
def pair (p : Profile) (first : Instr) (second : Port → Instr) (s : State.At ε) : Host.Outcome (State.At ε) Fault Refusal :=
  onNext (hostWait p s) fun s' =>
    match s'.block with
    | .idle => onNext (issueAndWait p first s') fun t =>
      match t.responses[s'.responses.length]? with
      | some (.ok r _) => issueAndWait p (second r) t
      | some (.fail _) => .next t
      | none => .next t
    | .busy _ => .next s'
    | .inReset => .next s'

/-- `write_var_i32 x` at a profile (43_signed_composition.md R141). -/
def writeVarI32At (p : Profile) (x : BitVec 32) (s : State.At ε) : Host.Outcome (State.At ε) Fault Refusal :=
  pair p (.zigzagEncode32 x) (fun r => .varintEncodeUnsigned32 (operand32 r)) s

/-- `write_var_i32 x` (43_signed_composition.md R141). -/
def writeVarI32 (x : BitVec 32) (s : State) : Host.Outcome State Fault Refusal := writeVarI32At profile x s

/-- `write_var_i64 x` at a profile (43_signed_composition.md R142). -/
def writeVarI64At (p : Profile) (x : BitVec 64) (s : State.At ε) : Host.Outcome (State.At ε) Fault Refusal :=
  pair p (.zigzagEncode64 x) (fun r => .varintEncodeUnsigned64 r) s

/-- `write_var_i64 x` (43_signed_composition.md R142). -/
def writeVarI64 (x : BitVec 64) (s : State) : Host.Outcome State Fault Refusal := writeVarI64At profile x s

/-- `read_var_i32` at a profile (43_signed_composition.md R143). -/
def readVarI32At (p : Profile) (s : State.At ε) : Host.Outcome (State.At ε) Fault Refusal :=
  pair p .varintDecodeUnsigned32 (fun r => .zigzagDecode32 (operand32 r)) s

/-- `read_var_i32` (43_signed_composition.md R143). -/
def readVarI32 (s : State) : Host.Outcome State Fault Refusal := readVarI32At profile s

/-- `read_var_i64` at a profile (43_signed_composition.md R144). -/
def readVarI64At (p : Profile) (s : State.At ε) : Host.Outcome (State.At ε) Fault Refusal :=
  pair p .varintDecodeUnsigned64 (fun r => .zigzagDecode64 r) s

/-- `read_var_i64` (43_signed_composition.md R144). -/
def readVarI64 (s : State) : Host.Outcome State Fault Refusal := readVarI64At profile s

end Sys2Proof.Machine
end

