-- ==== Sys2Proof/Safety/Channel.lean ====
section
/-! DEFINITION. What the channel may answer, said as relations between streams and not through the machine's own access
operations, so that a claim about those operations does not repeat them. -/

namespace Sys2Proof.Machine

variable {ε : Type}

/-- Asked for one byte, the source `rx` answers `a` and is then `rx'` (20_memory.md R42). -/
def SourceGives (rx : Source ε) (a : RxAnswer ε) (rx' : Source ε) : Prop :=
  (∃ as, rx.answers = a :: as ∧ rx' = { answers := as, after := rx.after }) ∨
    (rx.answers = [] ∧ rx.after = some a ∧ rx' = rx)

/-- The source never answers the next read (70_reset_and_hazards.md R178). -/
def SourceSilent (rx : Source ε) : Prop := rx.answers = [] ∧ rx.after = none

/-- Asked one by one, the source `rx` supplies exactly the bytes `bs`, in order, and is then `rx'` (20_memory.md R47). -/
def Supplies : Source ε → List Byte → Source ε → Prop
  | rx, [], rx' => rx' = rx
  | rx, b :: bs, rx' => ∃ next, SourceGives rx (.byte b) next ∧ Supplies next bs rx'

/-- `n` reads lead from `rx` to `rx'`, whatever was answered. -/
def ReadsTo : Nat → Source ε → Source ε → Prop
  | 0, rx, rx' => rx' = rx
  | n + 1, rx, rx' => ∃ a next, SourceGives rx a next ∧ ReadsTo n next rx'

/-- Handed one write, the sink `tx` answers `a`, has appended the bytes `bs` and is then `tx'` (20_memory.md R43). -/
def SinkGives (tx : Sink ε) (a : TxAnswer ε) (bs : List Byte) (tx' : Sink ε) : Prop :=
  (∃ as, tx.answers = a :: as ∧ tx' = { written := tx.written ++ bs, answers := as, after := tx.after }) ∨
    (tx.answers = [] ∧ tx.after = some a ∧ tx' = { tx with written := tx.written ++ bs })

/-- The sink never answers the next write (70_reset_and_hazards.md R178). -/
def SinkSilent (tx : Sink ε) : Prop := tx.answers = [] ∧ tx.after = none

/-- The failure values a source may yet report. -/
def Source.mayFail (rx : Source ε) (e : ε) : Prop := .fail e ∈ rx.answers ∨ rx.after = some (.fail e)

/-- The failure values a sink may yet report. -/
def Sink.mayFail (tx : Sink ε) (e : ε) : Prop := ∃ k, .fail k e ∈ tx.answers ∨ tx.after = some (.fail k e)

end Sys2Proof.Machine
end

