-- ==== Sys2Proof/Safety/WireFormat.lean ====
section
/-! DEFINITION. The wire format of one value in plain arithmetic (30_encoding.md part 2), and what it is for a command to
write or to read a sequence of bytes. -/

namespace Sys2Proof.Machine

/-- The bytes `init ++ [last]` are exactly one value's: every byte of `init` has its continuation bit set, and `last` has
it clear or stands at the last possible index (30_encoding.md R70). -/
def EndsValue (bound : Nat) (init : List Byte) (last : Byte) : Prop :=
  init.length < bound ∧ (∀ b ∈ init, continues b = true) ∧ (continues last = false ∨ init.length + 1 = bound)

/-- The number that the 7-bit groups of a byte sequence hold, least significant group first (30_encoding.md R67). -/
def groups : List Byte → Nat
  | [] => 0
  | b :: bs => b.toNat % 128 + 128 * groups bs

/-- The value of a 64-bit sequence: eight groups of 7 bits, and the ninth byte whole (30_encoding.md R69). -/
def value64 (init : List Byte) (last : Byte) : Nat :=
  if init.length = 8 then groups init + 2 ^ 56 * last.toNat else groups (init ++ [last])

/-- What an encoder bounded at `bound` bytes writes for the number `v` (41_varint_encode.md R101): the low 7 bits; if
something remains, the continuation bit, and, unless this was the last byte allowed, the rest. -/
def wireBytes : Nat → Nat → List Byte
  | 0, _ => []
  | bound + 1, v =>
    if v / 128 = 0 then [BitVec.ofNat 8 (v % 128)]
    else if bound = 0 then [BitVec.ofNat 8 (v % 128 + 128)]
    else BitVec.ofNat 8 (v % 128 + 128) :: wireBytes bound (v / 128)

/-- `varint_encode_unsigned_32 x` writes the bytes `bs` and answers their count, on every idle block and accepting sink. -/
def Encodes32 (x : BitVec 32) (bs : List Byte) : Prop :=
  ∀ (s : State) (tx : Sink Err), s.block = .idle → SinkGives s.tx .accept bs tx →
    exec (.varintEncodeUnsigned32 x) s =
      .next { s with tx := tx, responses := s.responses ++ [.ok 0 (BitVec.ofNat 4 bs.length)] }

/-- `varint_encode_unsigned_64 x` writes the bytes `bs` and answers their count, on every idle block and accepting sink. -/
def Encodes64 (x : BitVec 64) (bs : List Byte) : Prop :=
  ∀ (s : State) (tx : Sink Err), s.block = .idle → SinkGives s.tx .accept bs tx →
    exec (.varintEncodeUnsigned64 x) s =
      .next { s with tx := tx, responses := s.responses ++ [.ok 0 (BitVec.ofNat 4 bs.length)] }

/-- `varint_decode_unsigned_32` takes the bytes `bs`, and no other, and answers `x`, on every idle block whose source
supplies them. -/
def Decodes32 (bs : List Byte) (x : BitVec 32) : Prop :=
  ∀ (s : State) (rx : Source Err), s.block = .idle → Supplies s.rx bs rx →
    exec .varintDecodeUnsigned32 s =
      .next { s with rx := rx, responses := s.responses ++ [.ok (x.setWidth 64) 0] }

/-- `varint_decode_unsigned_64` takes the bytes `bs`, and no other, and answers `x`, on every idle block whose source
supplies them. -/
def Decodes64 (bs : List Byte) (x : BitVec 64) : Prop :=
  ∀ (s : State) (rx : Source Err), s.block = .idle → Supplies s.rx bs rx →
    exec .varintDecodeUnsigned64 s = .next { s with rx := rx, responses := s.responses ++ [.ok x 0] }

/-- The 64-bit encoder of the machine at a profile writes the bytes `bs` for `x`. -/
def EncodesAt (p : Profile) (x : BitVec 64) (bs : List Byte) : Prop :=
  ∀ (s : State) (tx : Sink Err), s.block = .idle → SinkGives s.tx .accept bs tx →
    execAt p (.varintEncodeUnsigned64 x) s =
      .next { s with tx := tx, responses := s.responses ++ [.ok 0 (BitVec.ofNat 4 bs.length)] }

/-- The 64-bit decoder of the machine at a profile takes the bytes `bs`, and no other, and answers `x`. -/
def DecodesAt (p : Profile) (bs : List Byte) (x : BitVec 64) : Prop :=
  ∀ (s : State) (rx : Source Err), s.block = .idle → Supplies s.rx bs rx →
    execAt p .varintDecodeUnsigned64 s = .next { s with rx := rx, responses := s.responses ++ [.ok x 0] }

/-- The same where the source answers late: after any bytes `init` before the last of `bs` the decoder waits, and a step with
the others given answers `x`. -/
def DecodesLateAt (p : Profile) (bs : List Byte) (x : BitVec 64) : Prop :=
  ∀ (s : State) (init rest : List Byte), s.block = .idle → bs = init ++ rest → rest ≠ [] → ∃ t op,
    execAt p .varintDecodeUnsigned64 { s with rx := { answers := init.map .byte, after := none } } = .next t ∧
    t.block = .busy op ∧ t.responses = s.responses ∧
    stepAt p { t with rx := { answers := rest.map .byte, after := none } } =
      .next { s with rx := { answers := [], after := none }, responses := s.responses ++ [.ok x 0] }

end Sys2Proof.Machine
end

