-- ==== Sys2Proof/Safety.lean ====
section
/-! DEFINITION. What counts as a well-formed state of a run, in the terms the claims use. -/

namespace Sys2Proof.Machine

variable {ε : Type}

/-- An encoder that waits for its one write has left its loop (41_varint_encode.md R101): `buf` holds the bytes of exactly
one value, `i` is the index of the last, and nothing remains of the value unless the bound ended the loop. -/
def EncState.Sound {W : Nat} (bound : Nat) (e : EncState W) : Prop :=
  e.buf.length = e.i + 1 ∧ (e.v = 0 ∨ e.i + 1 = bound) ∧ ∃ init last, e.buf = init ++ [last] ∧ EndsValue bound init last

/-- A decoder that waits for the read of iteration `i` (42_varint_decode.md R121): `i` is below the bound, only the bits
below `7 * i` of the accumulator are in use, and the byte just read, if any, said that more follow. -/
def DecState.Sound {W : Nat} (bound : Nat) (d : DecState W) : Prop :=
  d.i < bound ∧ d.acc.toNat < 2 ^ (7 * d.i) ∧
    match d.b with
    | none => d.i = 0
    | some b => 0 < d.i ∧ continues b = true

/-- What an operation in flight holds is sound. -/
def Block.Sound : Block → Prop
  | .idle => True
  | .inReset => True
  | .busy (.encode32 e) => e.Sound (maxB profile .w32) ∧ e.v = 0
  | .busy (.encode64 e) => e.Sound (maxB profile .w64)
  | .busy (.decode32 d) => d.Sound (maxB profile .w32)
  | .busy (.decode64 d) => d.Sound (maxB profile .w64)

/-- A response is one that some operation may give (10_state.md R29): a count and a result are never both non-zero, and a
count is at most `MAXB64`. -/
def Response.Sound : Response ε → Prop
  | .ok r n => (r = 0 ∨ n = 0) ∧ n.toNat ≤ maxB profile .w64
  | .fail _ => True

/-- The invariant of a run. -/
def State.At.Inv (s : State.At ε) : Prop := s.block.Sound ∧ ∀ x ∈ s.responses, x.Sound

/-- The integer an operand stands for: signed for the two zigzag encoders, unsigned for the others (00_scope.md R11). -/
def operandValue : Instr → Option Int
  | .zigzagEncode32 x => some x.toInt
  | .zigzagDecode32 u => some u.toNat
  | .zigzagEncode64 x => some x.toInt
  | .zigzagDecode64 u => some u.toNat
  | .varintEncodeUnsigned32 x => some x.toNat
  | .varintDecodeUnsigned32 => none
  | .varintEncodeUnsigned64 x => some x.toNat
  | .varintDecodeUnsigned64 => none

/-! ### Renaming the failure values, from one type of them to another -/

variable {ε' : Type}

/-- Renaming the failure values of an answer of the source. -/
def RxAnswer.mapErr (f : ε → ε') : RxAnswer ε → RxAnswer ε'
  | .byte b => .byte b
  | .fail e => .fail (f e)

/-- Renaming the failure values of an answer of the sink. -/
def TxAnswer.mapErr (f : ε → ε') : TxAnswer ε → TxAnswer ε'
  | .accept => .accept
  | .fail k e => .fail k (f e)

/-- Renaming the failure values of a source. -/
def Source.mapErr (f : ε → ε') (rx : Source ε) : Source ε' :=
  { answers := rx.answers.map (·.mapErr f), after := rx.after.map (·.mapErr f) }

/-- Renaming the failure values of a sink. -/
def Sink.mapErr (f : ε → ε') (tx : Sink ε) : Sink ε' :=
  { written := tx.written, answers := tx.answers.map (·.mapErr f), after := tx.after.map (·.mapErr f) }

/-- Renaming the failure value of a response. -/
def Response.mapErr (f : ε → ε') : Response ε → Response ε'
  | .ok r n => .ok r n
  | .fail e => .fail (f e)

/-- Renaming the failure values in a move of the host. -/
def HostMove.mapErr (f : ε → ε') : HostMove ε → HostMove ε'
  | .issue w => .issue w
  | .serveRx a => .serveRx (a.mapErr f)
  | .serveTx a => .serveTx (a.mapErr f)
  | .connectRx rx => .connectRx (rx.mapErr f)
  | .connectTx tx => .connectTx (tx.mapErr f)
  | .loopback e => .loopback (f e)
  | .assertReset k => .assertReset k
  | .releaseReset => .releaseReset

/-- Renaming every failure value of a state: the block never looks at one (60_exceptions.md R151). -/
def State.At.mapErr (f : ε → ε') (s : State.At ε) : State.At ε' :=
  { block := s.block
    rx := s.rx.mapErr f
    tx := s.tx.mapErr f
    agenda := s.agenda.map (·.mapErr f)
    responses := s.responses.map (·.mapErr f) }

end Sys2Proof.Machine
end

