-- ==== Sys2Proof/Certificates/Slice0/Obligations.lean ====
section
/-! DEFINITION. The statements for the provers. Each docstring names the rule or the section of spec/ it formalises. -/

open Sys2Proof Sys2Proof.Machine

/-! ### The command word -/

/-- 30_encoding.md R61: bits 66:64 are `op`, bits 63:0 are `a`. -/
def Obligations.CommandWordHasTwoFields : Prop :=
  ∀ w : Cmd, cmdOp w ++ cmdA w = w ∧ (∀ i < 3, (cmdOp w).getLsbD i = w.getLsbD (64 + i)) ∧
    ∀ i < 64, (cmdA w).getLsbD i = w.getLsbD i

/-- 30_encoding.md R64: which bits of `a` are the operand of each operation, and that a signed operand is a two's-complement
pattern. -/
def Obligations.OperandsAreAssembledFromA : Prop :=
  ∀ a : Port,
    decode (0b000#3 ++ a) = .zigzagEncode32 (a.extractLsb' 0 32) ∧
    decode (0b001#3 ++ a) = .zigzagDecode32 (a.extractLsb' 0 32) ∧
    decode (0b010#3 ++ a) = .zigzagEncode64 a ∧
    decode (0b011#3 ++ a) = .zigzagDecode64 a ∧
    decode (0b100#3 ++ a) = .varintEncodeUnsigned32 (a.extractLsb' 0 32) ∧
    decode (0b101#3 ++ a) = .varintDecodeUnsigned32 ∧
    decode (0b110#3 ++ a) = .varintEncodeUnsigned64 a ∧
    decode (0b111#3 ++ a) = .varintDecodeUnsigned64 ∧
    operandValue (decode (0b000#3 ++ a)) =
      some (if a.getLsbD 31 then ((a.toNat % 2 ^ 32 : Nat) : Int) - 2 ^ 32 else ((a.toNat % 2 ^ 32 : Nat) : Int)) ∧
    operandValue (decode (0b010#3 ++ a)) =
      some (if a.getLsbD 63 then (a.toNat : Int) - 2 ^ 64 else (a.toNat : Int))

/-- 30_encoding.md R62: a word is the operation of a row exactly when it has the row's match under the row's mask. -/
def Obligations.MatchAndMaskSelectTheOperation : Prop :=
  ∀ w : Cmd,
    (w &&& 0x70000000000000000 = 0x00000000000000000 ↔ (decode w).op = .zigzagEncode32) ∧
    (w &&& 0x70000000000000000 = 0x10000000000000000 ↔ (decode w).op = .zigzagDecode32) ∧
    (w &&& 0x70000000000000000 = 0x20000000000000000 ↔ (decode w).op = .zigzagEncode64) ∧
    (w &&& 0x70000000000000000 = 0x30000000000000000 ↔ (decode w).op = .zigzagDecode64) ∧
    (w &&& 0x70000000000000000 = 0x40000000000000000 ↔ (decode w).op = .varintEncodeUnsigned32) ∧
    (w &&& 0x70000000000000000 = 0x50000000000000000 ↔ (decode w).op = .varintDecodeUnsigned32) ∧
    (w &&& 0x70000000000000000 = 0x60000000000000000 ↔ (decode w).op = .varintEncodeUnsigned64) ∧
    (w &&& 0x70000000000000000 = 0x70000000000000000 ↔ (decode w).op = .varintDecodeUnsigned64)

/-- 30_encoding.md R63: `op[2]` is the layer, `op[1]` the width, `op[0]` the direction. -/
def Obligations.OpBitsAreLayerWidthDirection : Prop :=
  ∀ w : Cmd,
    (decode w).op.layer = (if (cmdOp w).getLsbD 2 then .varint else .zigzag) ∧
    (decode w).op.width = (if (cmdOp w).getLsbD 1 then .w64 else .w32) ∧
    (decode w).op.direction = (if (cmdOp w).getLsbD 0 then .decode else .encode)

/-- 30_encoding.md R65: every 67-bit word is a legal command of exactly one row, and no value of the ignored operand bits
changes the command. -/
def Obligations.EveryWordIsExactlyOneCommand : Prop :=
  ∀ w : Cmd,
    decodeNat w.toNat = .ok (decode w) ∧
    (∃! row, row ∈ opcodeTable ∧ row.covers w = true) ∧
    ∀ w' : Cmd, cmdOp w' = cmdOp w →
      cmdA w' &&& (decode w).op.operandMask = cmdA w &&& (decode w).op.operandMask → decode w' = decode w

/-- 30_encoding.md part 1: the decoder undoes the encoder. -/
def Obligations.DecodeUndoesEncode : Prop :=
  ∀ i : Instr, i.wellFormed = true → decode (encode i) = i

/-- 30_encoding.md part 1: encoding a decoded word gives the word back, its ignored operand bits cleared. -/
def Obligations.EncodeUndoesDecodeUpToIgnoredBits : Prop :=
  ∀ w : Cmd, encode (decode w) = cmdOp w ++ (cmdA w &&& (decode w).op.operandMask)

/-- Words of 30_encoding.md R74 and 95_test_vectors.md parts 2 and 3, at the spec's own operands. -/
def Obligations.SpecWordsDecode : Prop :=
  decode 0x000000000FFFFFFFF = .zigzagEncode32 (-1) ∧
  decode 0x0DEADBEEF00000001 = .zigzagEncode32 1 ∧
  decode 0x1000000000000007F = .zigzagDecode32 0x7F ∧
  decode 0x28000000000000000 = .zigzagEncode64 0x8000000000000000 ∧
  decode 0x3FFFFFFFFFFFFFFFF = .zigzagDecode64 0xFFFFFFFFFFFFFFFF ∧
  decode 0x4000000000000012C = .varintEncodeUnsigned32 300 ∧
  decode 0x50000000000000000 = .varintDecodeUnsigned32 ∧
  decode 0x6FFFFFFFFFFFFFFFF = .varintEncodeUnsigned64 0xFFFFFFFFFFFFFFFF ∧
  decode 0x70000000000000000 = .varintDecodeUnsigned64

/-- 10_state.md section 1 and 70_reset_and_hazards.md section 7: the host issues commands and the idle block executes each.
A step at an idle block with a command presented is `exec` of the decoded command, in the state without it on the port. -/
def Obligations.StepRunsThePresentedCommand : Prop :=
  ∀ (s : State) (w : Cmd) (rest : List (HostMove Err)), s.block = .idle → s.agenda = .issue w :: rest →
    step s = exec (decode w) { s with agenda := rest }

/-! ### The zigzag operations -/

/-- 40_zigzag.md R80: each zigzag command is a bijection of its operand's patterns, answers `Ok(r, 0)` whatever came before,
and changes nothing else. -/
def Obligations.ZigzagIsPureAndTotal : Prop :=
  (∃ f : BitVec 32 → BitVec 32, f.Bijective ∧ ∀ (x : BitVec 32) (s : State), s.block = .idle →
    exec (.zigzagEncode32 x) s = .next { s with responses := s.responses ++ [.ok ((f x).setWidth 64) 0] }) ∧
  (∃ f : BitVec 32 → BitVec 32, f.Bijective ∧ ∀ (u : BitVec 32) (s : State), s.block = .idle →
    exec (.zigzagDecode32 u) s = .next { s with responses := s.responses ++ [.ok ((f u).setWidth 64) 0] }) ∧
  (∃ f : BitVec 64 → BitVec 64, f.Bijective ∧ ∀ (x : BitVec 64) (s : State), s.block = .idle →
    exec (.zigzagEncode64 x) s = .next { s with responses := s.responses ++ [.ok (f x) 0] }) ∧
  (∃ f : BitVec 64 → BitVec 64, f.Bijective ∧ ∀ (u : BitVec 64) (s : State), s.block = .idle →
    exec (.zigzagDecode64 u) s = .next { s with responses := s.responses ++ [.ok (f u) 0] })

/-- 40_zigzag.md R81. -/
def Obligations.ZigzagEncode32Meaning : Prop :=
  ∀ (a : Port) (s : State), s.block = .idle →
    decode (0b000#3 ++ a) = .zigzagEncode32 (a.extractLsb' 0 32) ∧
    ∃ u : BitVec 32,
      (u.toNat : Int) = (if 0 ≤ (a.extractLsb' 0 32).toInt then 2 * (a.extractLsb' 0 32).toInt
        else 2 * (-(a.extractLsb' 0 32).toInt) - 1) ∧
      exec (.zigzagEncode32 (a.extractLsb' 0 32)) s =
        .next { s with responses := s.responses ++ [.ok (u.setWidth 64) 0] }

/-- 40_zigzag.md R82. -/
def Obligations.ZigzagDecode32Meaning : Prop :=
  ∀ (a : Port) (s : State), s.block = .idle →
    decode (0b001#3 ++ a) = .zigzagDecode32 (a.extractLsb' 0 32) ∧
    ∃ y : BitVec 32,
      y.toInt = (if (a.extractLsb' 0 32).getLsbD 0 = false then (((a.extractLsb' 0 32).toNat / 2 : Nat) : Int)
        else -(((a.extractLsb' 0 32).toNat / 2 : Nat) : Int) - 1) ∧
      exec (.zigzagDecode32 (a.extractLsb' 0 32)) s =
        .next { s with responses := s.responses ++ [.ok (y.setWidth 64) 0] }

/-- 40_zigzag.md R83. -/
def Obligations.ZigzagEncode64Meaning : Prop :=
  ∀ (a : Port) (s : State), s.block = .idle →
    decode (0b010#3 ++ a) = .zigzagEncode64 a ∧
    ∃ u : BitVec 64,
      (u.toNat : Int) = (if 0 ≤ a.toInt then 2 * a.toInt else 2 * (-a.toInt) - 1) ∧
      exec (.zigzagEncode64 a) s = .next { s with responses := s.responses ++ [.ok u 0] }

/-- 40_zigzag.md R84. -/
def Obligations.ZigzagDecode64Meaning : Prop :=
  ∀ (a : Port) (s : State), s.block = .idle →
    decode (0b011#3 ++ a) = .zigzagDecode64 a ∧
    ∃ y : BitVec 64,
      y.toInt = (if a.getLsbD 0 = false then ((a.toNat / 2 : Nat) : Int) else -((a.toNat / 2 : Nat) : Int) - 1) ∧
      exec (.zigzagDecode64 a) s = .next { s with responses := s.responses ++ [.ok y 0] }

/-- 40_zigzag.md section 3 (inverse and bijection): at each width, each direction undoes the other. -/
def Obligations.ZigzagDirectionsUndoEachOther : Prop :=
  (∀ (x : BitVec 32) (s : State), s.block = .idle → ∃ r t,
    exec (.zigzagEncode32 x) s = .next t ∧ t.responses = s.responses ++ [.ok r 0] ∧
    exec (.zigzagDecode32 (r.extractLsb' 0 32)) t =
      .next { s with responses := s.responses ++ [.ok r 0, .ok (x.setWidth 64) 0] }) ∧
  (∀ (u : BitVec 32) (s : State), s.block = .idle → ∃ r t,
    exec (.zigzagDecode32 u) s = .next t ∧ t.responses = s.responses ++ [.ok r 0] ∧
    exec (.zigzagEncode32 (r.extractLsb' 0 32)) t =
      .next { s with responses := s.responses ++ [.ok r 0, .ok (u.setWidth 64) 0] }) ∧
  (∀ (x : BitVec 64) (s : State), s.block = .idle → ∃ r t,
    exec (.zigzagEncode64 x) s = .next t ∧ t.responses = s.responses ++ [.ok r 0] ∧
    exec (.zigzagDecode64 r) t = .next { s with responses := s.responses ++ [.ok r 0, .ok x 0] }) ∧
  (∀ (u : BitVec 64) (s : State), s.block = .idle → ∃ r t,
    exec (.zigzagDecode64 u) s = .next t ∧ t.responses = s.responses ++ [.ok r 0] ∧
    exec (.zigzagEncode64 r) t = .next { s with responses := s.responses ++ [.ok r 0, .ok u 0] })

/-- 40_zigzag.md section 3 (bitwise forms): the exact integers agree with the shift and exclusive-or forms. -/
def Obligations.ZigzagBitwiseFormsAgree : Prop :=
  (∀ (x : BitVec 32) (s : State), s.block = .idle → exec (.zigzagEncode32 x) s =
    .next { s with responses := s.responses ++ [.ok (((x <<< 1) ^^^ x.sshiftRight 31).setWidth 64) 0] }) ∧
  (∀ (u : BitVec 32) (s : State), s.block = .idle → exec (.zigzagDecode32 u) s =
    .next { s with
      responses := s.responses ++ [.ok (((u >>> 1) ^^^ (u.extractLsb' 0 1).signExtend 32).setWidth 64) 0] }) ∧
  (∀ (x : BitVec 64) (s : State), s.block = .idle → exec (.zigzagEncode64 x) s =
    .next { s with responses := s.responses ++ [.ok ((x <<< 1) ^^^ x.sshiftRight 63) 0] }) ∧
  (∀ (u : BitVec 64) (s : State), s.block = .idle → exec (.zigzagDecode64 u) s =
    .next { s with responses := s.responses ++ [.ok ((u >>> 1) ^^^ (u.extractLsb' 0 1).signExtend 64) 0] })

/-- 40_zigzag.md section 3 (ordering by magnitude): a result is below `2^k` exactly when the operand lies between
`-2^(k-1)` and `2^(k-1)`. -/
def Obligations.ZigzagOrdersByMagnitude : Prop :=
  (∀ (x : BitVec 32) (s : State), s.block = .idle → ∃ r : Port,
    exec (.zigzagEncode32 x) s = .next { s with responses := s.responses ++ [.ok r 0] } ∧
    ∀ k : Nat, 1 ≤ k → k ≤ 32 →
      (r.toNat < 2 ^ k ↔ -(2 ^ (k - 1) : Int) ≤ x.toInt ∧ x.toInt < (2 ^ (k - 1) : Int))) ∧
  (∀ (x : BitVec 64) (s : State), s.block = .idle → ∃ r : Port,
    exec (.zigzagEncode64 x) s = .next { s with responses := s.responses ++ [.ok r 0] } ∧
    ∀ k : Nat, 1 ≤ k → k ≤ 64 →
      (r.toNat < 2 ^ k ↔ -(2 ^ (k - 1) : Int) ≤ x.toInt ∧ x.toInt < (2 ^ (k - 1) : Int)))

/-! ### The varint encoders -/

/-- 41_varint_encode.md R102. What `TX` holds while the write is not answered is no part of it (`ChannelUseOfEachOperation`). -/
def Obligations.VarintEncode32Meaning : Prop :=
  ∀ (a : Port) (s : State), s.block = .idle →
    let x := a.extractLsb' 0 32
    let bs := wireBytes 5 x.toNat
    decode (0b100#3 ++ a) = .varintEncodeUnsigned32 x ∧ 1 ≤ bs.length ∧ bs.length ≤ 5 ∧ (bs.getD 4 0).toNat ≤ 0x0F ∧
    (∀ tx, SinkGives s.tx .accept bs tx → exec (.varintEncodeUnsigned32 x) s =
      .next { s with tx := tx, responses := s.responses ++ [.ok 0 (BitVec.ofNat 4 bs.length)] }) ∧
    (∀ k e tx, SinkGives s.tx (.fail k e) (bs.take k) tx → exec (.varintEncodeUnsigned32 x) s =
      .next { s with tx := tx, responses := s.responses ++ [.fail e] }) ∧
    (SinkSilent s.tx → ∃ e tx, e.buf = bs ∧
      exec (.varintEncodeUnsigned32 x) s = .next { s with block := .busy (.encode32 e), tx := tx })

/-- 41_varint_encode.md R103. What `TX` holds while the write is not answered is no part of it (`ChannelUseOfEachOperation`). -/
def Obligations.VarintEncode64Meaning : Prop :=
  ∀ (a : Port) (s : State), s.block = .idle →
    let bs := wireBytes 9 a.toNat
    decode (0b110#3 ++ a) = .varintEncodeUnsigned64 a ∧ 1 ≤ bs.length ∧ bs.length ≤ 9 ∧
    (∀ tx, SinkGives s.tx .accept bs tx → exec (.varintEncodeUnsigned64 a) s =
      .next { s with tx := tx, responses := s.responses ++ [.ok 0 (BitVec.ofNat 4 bs.length)] }) ∧
    (∀ k e tx, SinkGives s.tx (.fail k e) (bs.take k) tx → exec (.varintEncodeUnsigned64 a) s =
      .next { s with tx := tx, responses := s.responses ++ [.fail e] }) ∧
    (SinkSilent s.tx → ∃ e tx, e.buf = bs ∧
      exec (.varintEncodeUnsigned64 a) s = .next { s with block := .busy (.encode64 e), tx := tx })

/-- 41_varint_encode.md section 3 (closed form): bit by bit, what each byte on the wire holds. -/
def Obligations.EncoderClosedForm : Prop :=
  (∀ x : BitVec 32, ∃ bs, Encodes32 x bs ∧ ∀ i < bs.length,
    (∀ j < 7, (bs.getD i 0).getLsbD j = x.getLsbD (7 * i + j)) ∧
    (bs.getD i 0).getLsbD 7 = decide (i + 1 < bs.length)) ∧
  (∀ x : BitVec 64, ∃ bs, Encodes64 x bs ∧ ∀ i < bs.length,
    (∀ j < 7, (bs.getD i 0).getLsbD j = x.getLsbD (7 * i + j)) ∧
    (bs.getD i 0).getLsbD 7 = (if i = 8 then x.getLsbD 63 else decide (i + 1 < bs.length)))

/-- 41_varint_encode.md R105: the count is the least `n` with
`x < 2^(7n)`, capped at 5 or 9; and the document's checkpoints. -/
def Obligations.EncoderLength : Prop :=
  (∀ x : BitVec 32, ∃ bs, Encodes32 x bs ∧ 1 ≤ bs.length ∧ bs.length ≤ 5 ∧ x.toNat < 2 ^ (7 * bs.length) ∧
    (1 < bs.length → 2 ^ (7 * (bs.length - 1)) ≤ x.toNat)) ∧
  (∀ x : BitVec 64, ∃ bs, Encodes64 x bs ∧ 1 ≤ bs.length ∧ bs.length ≤ 9 ∧
    (bs.length < 9 → x.toNat < 2 ^ (7 * bs.length)) ∧ (1 < bs.length → 2 ^ (7 * (bs.length - 1)) ≤ x.toNat)) ∧
  Encodes32 0 [0x00] ∧ Encodes32 127 [0x7F] ∧ Encodes32 128 [0x80, 0x01] ∧
  Encodes32 0xFFFFFFFF [0xFF, 0xFF, 0xFF, 0xFF, 0x0F] ∧
  Encodes64 0xFFFFFFFFFFFFFFFF [0xFF, 0xFF, 0xFF, 0xFF, 0xFF, 0xFF, 0xFF, 0xFF, 0xFF]

/-- 41_varint_encode.md R106: zero is the one byte 0x00, and no encoder writes zero bytes. -/
def Obligations.ZeroIsOneByteAndNoneIsEmpty : Prop :=
  Encodes32 0 [0x00] ∧ Encodes64 0 [0x00] ∧
  (∀ x : BitVec 32, ∃ bs, Encodes32 x bs ∧ bs ≠ []) ∧ (∀ x : BitVec 64, ∃ bs, Encodes64 x bs ∧ bs ≠ [])

/-- 41_varint_encode.md R107: an encoder answers `Fail(e)` exactly when its one write fails with `e`; then a prefix of its
bytes is in `TX`, and nothing else has changed. -/
def Obligations.EncoderFailsExactlyWhenItsWriteFails : Prop :=
  (∀ (x : BitVec 32) (s t : State) (e : Err), s.block = .idle → exec (.varintEncodeUnsigned32 x) s = .next t →
    (t.responses = s.responses ++ [.fail e] ↔
      ∃ bs k, Encodes32 x bs ∧ SinkGives s.tx (.fail k e) (bs.take k) t.tx) ∧
    (t.responses = s.responses ++ [.fail e] → t = { s with tx := t.tx, responses := t.responses } ∧
      ∃ bs k, Encodes32 x bs ∧ k ≤ bs.length ∧ t.tx.written = s.tx.written ++ bs.take k)) ∧
  (∀ (x : BitVec 64) (s t : State) (e : Err), s.block = .idle → exec (.varintEncodeUnsigned64 x) s = .next t →
    (t.responses = s.responses ++ [.fail e] ↔
      ∃ bs k, Encodes64 x bs ∧ SinkGives s.tx (.fail k e) (bs.take k) t.tx) ∧
    (t.responses = s.responses ++ [.fail e] → t = { s with tx := t.tx, responses := t.responses } ∧
      ∃ bs k, Encodes64 x bs ∧ k ≤ bs.length ∧ t.tx.written = s.tx.written ++ bs.take k))

/-! ### The varint decoders -/

/-- 42_varint_decode.md R122. -/
def Obligations.VarintDecode32Meaning : Prop :=
  ∀ (a : Port) (s : State), s.block = .idle →
    decode (0b101#3 ++ a) = .varintDecodeUnsigned32 ∧
    (∀ init last rx, EndsValue 5 init last → Supplies s.rx (init ++ [last]) rx → exec .varintDecodeUnsigned32 s =
      .next { s with
        rx := rx
        responses := s.responses ++ [.ok ((BitVec.ofNat 32 (groups (init ++ [last]))).setWidth 64) 0] }) ∧
    (∀ init mid e rx, init.length < 5 → (∀ b ∈ init, b.getLsbD 7 = true) → Supplies s.rx init mid →
      SourceGives mid (.fail e) rx →
      exec .varintDecodeUnsigned32 s = .next { s with rx := rx, responses := s.responses ++ [.fail e] }) ∧
    (∀ init mid, init.length < 5 → (∀ b ∈ init, b.getLsbD 7 = true) → Supplies s.rx init mid → SourceSilent mid →
      ∃ d, d.i = init.length ∧ d.acc.toNat = groups init ∧ d.b = init.getLast? ∧
        exec .varintDecodeUnsigned32 s = .next { s with rx := mid, block := .busy (.decode32 d) })

/-- 42_varint_decode.md R123. -/
def Obligations.VarintDecode64Meaning : Prop :=
  ∀ (a : Port) (s : State), s.block = .idle →
    decode (0b111#3 ++ a) = .varintDecodeUnsigned64 ∧
    (∀ init last rx, EndsValue 9 init last → Supplies s.rx (init ++ [last]) rx → exec .varintDecodeUnsigned64 s =
      .next { s with rx := rx, responses := s.responses ++ [.ok (BitVec.ofNat 64 (value64 init last)) 0] }) ∧
    (∀ init mid e rx, init.length < 9 → (∀ b ∈ init, b.getLsbD 7 = true) → Supplies s.rx init mid →
      SourceGives mid (.fail e) rx →
      exec .varintDecodeUnsigned64 s = .next { s with rx := rx, responses := s.responses ++ [.fail e] }) ∧
    (∀ init mid, init.length < 9 → (∀ b ∈ init, b.getLsbD 7 = true) → Supplies s.rx init mid → SourceSilent mid →
      ∃ d, d.i = init.length ∧ d.acc.toNat = groups init ∧ d.b = init.getLast? ∧
        exec .varintDecodeUnsigned64 s = .next { s with rx := mid, block := .busy (.decode64 d) })

/-- 42_varint_decode.md section 3 (closed form): bit by bit, what the result holds. -/
def Obligations.DecoderClosedForm : Prop :=
  (∀ init last, EndsValue 5 init last → ∃ r : BitVec 32, Decodes32 (init ++ [last]) r ∧
    ∀ m < 32, r.getLsbD m = ((init ++ [last]).getD (m / 7) 0).getLsbD (m % 7)) ∧
  (∀ init last, EndsValue 9 init last → ∃ r : BitVec 64, Decodes64 (init ++ [last]) r ∧
    (∀ m < 63, r.getLsbD m = ((init ++ [last]).getD (m / 7) 0).getLsbD (m % 7)) ∧
    r.getLsbD 63 = (decide (init.length = 8) && last.getLsbD 7))

/-- 42_varint_decode.md R125: whatever bytes a source holds, a decoder stops at the first that ends a value, after at most
5 or 9, answers `Ok`, and leaves the rest. -/
def Obligations.DecoderStopsAtTheEndOfOneValue : Prop :=
  (∀ bs : List Byte, bs.length = 5 → ∃ init last rest r, bs = init ++ last :: rest ∧ EndsValue 5 init last ∧
    Decodes32 (init ++ [last]) r) ∧
  (∀ bs : List Byte, bs.length = 9 → ∃ init last rest r, bs = init ++ last :: rest ∧ EndsValue 9 init last ∧
    Decodes64 (init ++ [last]) r)

/-- 42_varint_decode.md R126: a decoder answers `Fail(e)` exactly when one of its reads fails with `e`; the bytes read
before stay consumed, and nothing else has changed. -/
def Obligations.DecoderFailsExactlyWhenAReadFails : Prop :=
  (∀ (s t : State) (e : Err), s.block = .idle → exec .varintDecodeUnsigned32 s = .next t →
    (t.responses = s.responses ++ [.fail e] ↔ ∃ init mid, init.length < 5 ∧ (∀ b ∈ init, b.getLsbD 7 = true) ∧
      Supplies s.rx init mid ∧ SourceGives mid (.fail e) t.rx) ∧
    (t.responses = s.responses ++ [.fail e] → t = { s with rx := t.rx, responses := t.responses })) ∧
  (∀ (s t : State) (e : Err), s.block = .idle → exec .varintDecodeUnsigned64 s = .next t →
    (t.responses = s.responses ++ [.fail e] ↔ ∃ init mid, init.length < 9 ∧ (∀ b ∈ init, b.getLsbD 7 = true) ∧
      Supplies s.rx init mid ∧ SourceGives mid (.fail e) t.rx) ∧
    (t.responses = s.responses ++ [.fail e] → t = { s with rx := t.rx, responses := t.responses }))

/-- 42_varint_decode.md section 3 (onto, not one to one): the spec's five sequences for zero, and two with surplus bits. -/
def Obligations.DecodingIsNotOneToOne : Prop :=
  Decodes32 [0x00] 0 ∧ Decodes32 [0x80, 0x00] 0 ∧ Decodes32 [0x80, 0x80, 0x00] 0 ∧
  Decodes32 [0x80, 0x80, 0x80, 0x00] 0 ∧ Decodes32 [0x80, 0x80, 0x80, 0x80, 0x00] 0 ∧
  Decodes32 [0x80, 0x80, 0x80, 0x80, 0x10] 0 ∧ Decodes32 [0x80, 0x80, 0x80, 0x80, 0xF0] 0

/-! ### Round trips -/

/-- 41_varint_encode.md section 3 (round trip with the decoder): at each width the decoder takes exactly the bytes the
encoder wrote and answers the value. -/
def Obligations.VarintRoundTrip : Prop :=
  (∀ x : BitVec 32, ∃ bs, Encodes32 x bs ∧ Decodes32 bs x) ∧ (∀ x : BitVec 64, ∃ bs, Encodes64 x bs ∧ Decodes64 bs x)

/-- 42_varint_decode.md R129: two values written back to back are read back in order, whatever their widths. -/
def Obligations.ValuesBackToBack : Prop :=
  (∀ x y : BitVec 32, ∃ bs cs, Encodes32 x bs ∧ Encodes32 y cs ∧
    ∀ (s : State) (rx : Source Err), s.block = .idle → Supplies s.rx (bs ++ cs) rx → ∃ t,
      exec .varintDecodeUnsigned32 s = .next t ∧ exec .varintDecodeUnsigned32 t =
        .next { s with rx := rx, responses := s.responses ++ [.ok (x.setWidth 64) 0, .ok (y.setWidth 64) 0] }) ∧
  (∀ (x : BitVec 32) (y : BitVec 64), ∃ bs cs, Encodes32 x bs ∧ Encodes64 y cs ∧
    ∀ (s : State) (rx : Source Err), s.block = .idle → Supplies s.rx (bs ++ cs) rx → ∃ t,
      exec .varintDecodeUnsigned32 s = .next t ∧ exec .varintDecodeUnsigned64 t =
        .next { s with rx := rx, responses := s.responses ++ [.ok (x.setWidth 64) 0, .ok y 0] }) ∧
  (∀ (x : BitVec 64) (y : BitVec 32), ∃ bs cs, Encodes64 x bs ∧ Encodes32 y cs ∧
    ∀ (s : State) (rx : Source Err), s.block = .idle → Supplies s.rx (bs ++ cs) rx → ∃ t,
      exec .varintDecodeUnsigned64 s = .next t ∧ exec .varintDecodeUnsigned32 t =
        .next { s with rx := rx, responses := s.responses ++ [.ok x 0, .ok (y.setWidth 64) 0] }) ∧
  (∀ x y : BitVec 64, ∃ bs cs, Encodes64 x bs ∧ Encodes64 y cs ∧
    ∀ (s : State) (rx : Source Err), s.block = .idle → Supplies s.rx (bs ++ cs) rx → ∃ t,
      exec .varintDecodeUnsigned64 s = .next t ∧ exec .varintDecodeUnsigned64 t =
        .next { s with rx := rx, responses := s.responses ++ [.ok x 0, .ok y 0] })

/-- 30_encoding.md part 2 (mixed widths): what a decoder of the other width makes of a canonical sequence. -/
def Obligations.MixedWidths : Prop :=
  (∀ x : BitVec 32, ∃ bs, Encodes32 x bs ∧ Decodes64 bs (x.setWidth 64)) ∧
  (∀ y : BitVec 64, y.toNat < 2 ^ 32 → ∃ bs, Encodes64 y bs ∧ Decodes32 bs (y.setWidth 32)) ∧
  (∀ y : BitVec 64, 2 ^ 32 ≤ y.toNat → ∃ bs, Encodes64 y bs ∧ 5 ≤ bs.length ∧
    Decodes32 (bs.take 5) (y.setWidth 32))

/-- 00_scope.md R8, the table's row P-LITERAL: at that profile the round trip fails exactly from `2^63` up, where the value
comes back without its bit 63, and in each case also where the source answers late. -/
def Obligations.LiteralProfileLosesBit63 : Prop :=
  ∀ y : BitVec 64, ∃ bs, EncodesAt .pLiteral y bs ∧
    (y.toNat < 2 ^ 63 → DecodesAt .pLiteral bs y ∧ DecodesLateAt .pLiteral bs y) ∧
    (2 ^ 63 ≤ y.toNat → ¬ DecodesAt .pLiteral bs y ∧ DecodesAt .pLiteral bs (y - 0x8000000000000000) ∧
      DecodesLateAt .pLiteral bs (y - 0x8000000000000000))

/-- 00_scope.md R8, the table's row P-FORMULA: at that profile the round trip holds, also where the source answers late,
and exactly the values from `2^63` up take ten bytes. -/
def Obligations.FormulaProfileTakesTenBytes : Prop :=
  ∀ y : BitVec 64, ∃ bs, EncodesAt .pFormula y bs ∧ DecodesAt .pFormula bs y ∧ DecodesLateAt .pFormula bs y ∧
    (bs.length = 10 ↔ 2 ^ 63 ≤ y.toNat)

/-! ### The signed pseudo-operations -/

/-- 43_signed_composition.md R141. -/
def Obligations.WriteVarI32Meaning : Prop :=
  ∀ (x : BitVec 32) (s : State), s.block = .idle → ∃ (u : BitVec 32) (bs : List Byte),
    (u.toNat : Int) = (if 0 ≤ x.toInt then 2 * x.toInt else 2 * (-x.toInt) - 1) ∧
    Encodes32 u bs ∧ 1 ≤ bs.length ∧ bs.length ≤ 5 ∧
    (∀ tx, SinkGives s.tx .accept bs tx → writeVarI32 x s = .next { s with
      tx := tx
      responses := s.responses ++ [.ok (u.setWidth 64) 0, .ok 0 (BitVec.ofNat 4 bs.length)] }) ∧
    (∀ k e tx, SinkGives s.tx (.fail k e) (bs.take k) tx → writeVarI32 x s =
      .next { s with tx := tx, responses := s.responses ++ [.ok (u.setWidth 64) 0, .fail e] })

/-- 43_signed_composition.md R142. -/
def Obligations.WriteVarI64Meaning : Prop :=
  ∀ (x : BitVec 64) (s : State), s.block = .idle → ∃ (u : BitVec 64) (bs : List Byte),
    (u.toNat : Int) = (if 0 ≤ x.toInt then 2 * x.toInt else 2 * (-x.toInt) - 1) ∧
    Encodes64 u bs ∧ 1 ≤ bs.length ∧ bs.length ≤ 9 ∧
    (∀ tx, SinkGives s.tx .accept bs tx → writeVarI64 x s = .next { s with
      tx := tx
      responses := s.responses ++ [.ok u 0, .ok 0 (BitVec.ofNat 4 bs.length)] }) ∧
    (∀ k e tx, SinkGives s.tx (.fail k e) (bs.take k) tx → writeVarI64 x s =
      .next { s with tx := tx, responses := s.responses ++ [.ok u 0, .fail e] })

/-- 43_signed_composition.md R143. -/
def Obligations.ReadVarI32Meaning : Prop :=
  ∀ s : State, s.block = .idle →
    (∀ (bs : List Byte) (u : BitVec 32) (rx : Source Err), Decodes32 bs u → Supplies s.rx bs rx → ∃ y : BitVec 32,
      y.toInt = (if u.getLsbD 0 = false then ((u.toNat / 2 : Nat) : Int) else -((u.toNat / 2 : Nat) : Int) - 1) ∧
      readVarI32 s = .next { s with
        rx := rx
        responses := s.responses ++ [.ok (u.setWidth 64) 0, .ok (y.setWidth 64) 0] }) ∧
    (∀ (t : State) (e : Err), exec .varintDecodeUnsigned32 s = .next t → t.responses = s.responses ++ [.fail e] →
      readVarI32 s = .next t)

/-- 43_signed_composition.md R144. -/
def Obligations.ReadVarI64Meaning : Prop :=
  ∀ s : State, s.block = .idle →
    (∀ (bs : List Byte) (u : BitVec 64) (rx : Source Err), Decodes64 bs u → Supplies s.rx bs rx → ∃ y : BitVec 64,
      y.toInt = (if u.getLsbD 0 = false then ((u.toNat / 2 : Nat) : Int) else -((u.toNat / 2 : Nat) : Int) - 1) ∧
      readVarI64 s = .next { s with rx := rx, responses := s.responses ++ [.ok u 0, .ok y 0] }) ∧
    (∀ (t : State) (e : Err), exec .varintDecodeUnsigned64 s = .next t → t.responses = s.responses ++ [.fail e] →
      readVarI64 s = .next t)

/-- 43_signed_composition.md R146: what a signed write puts on the wire, a signed read takes off it, for every signed value
of both widths. -/
def Obligations.SignedRoundTrip : Prop :=
  (∀ x : BitVec 32, ∃ bs,
    (∀ (s : State) (tx : Sink Err), s.block = .idle → SinkGives s.tx .accept bs tx → ∃ m, writeVarI32 x s =
      .next { s with tx := tx, responses := s.responses ++ [m, .ok 0 (BitVec.ofNat 4 bs.length)] }) ∧
    (∀ (s : State) (rx : Source Err), s.block = .idle → Supplies s.rx bs rx → ∃ m, readVarI32 s =
      .next { s with rx := rx, responses := s.responses ++ [m, .ok (x.setWidth 64) 0] })) ∧
  (∀ x : BitVec 64, ∃ bs,
    (∀ (s : State) (tx : Sink Err), s.block = .idle → SinkGives s.tx .accept bs tx → ∃ m, writeVarI64 x s =
      .next { s with tx := tx, responses := s.responses ++ [m, .ok 0 (BitVec.ofNat 4 bs.length)] }) ∧
    (∀ (s : State) (rx : Source Err), s.block = .idle → Supplies s.rx bs rx → ∃ m, readVarI64 s =
      .next { s with rx := rx, responses := s.responses ++ [m, .ok x 0] }))

/-- 43_signed_composition.md R147: the least number of bytes below the maximum whose signed range holds the
value, or the maximum. -/
def Obligations.SignedLength : Prop :=
  (∀ x : BitVec 32, ∃ bs,
    (∀ (s : State) (tx : Sink Err), s.block = .idle → SinkGives s.tx .accept bs tx → ∃ m, writeVarI32 x s =
      .next { s with tx := tx, responses := s.responses ++ [m, .ok 0 (BitVec.ofNat 4 bs.length)] }) ∧
    1 ≤ bs.length ∧ bs.length ≤ 5 ∧
    ∀ n : Nat, 1 ≤ n → n < 5 →
      (bs.length ≤ n ↔ -(2 ^ (7 * n - 1) : Int) ≤ x.toInt ∧ x.toInt < (2 ^ (7 * n - 1) : Int))) ∧
  (∀ x : BitVec 64, ∃ bs,
    (∀ (s : State) (tx : Sink Err), s.block = .idle → SinkGives s.tx .accept bs tx → ∃ m, writeVarI64 x s =
      .next { s with tx := tx, responses := s.responses ++ [m, .ok 0 (BitVec.ofNat 4 bs.length)] }) ∧
    1 ≤ bs.length ∧ bs.length ≤ 9 ∧
    ∀ n : Nat, 1 ≤ n → n < 9 →
      (bs.length ≤ n ↔ -(2 ^ (7 * n - 1) : Int) ≤ x.toInt ∧ x.toInt < (2 ^ (7 * n - 1) : Int)))

/-- 43_signed_composition.md R145: a command that the host issues between the two steps of a write pair
changes neither the pair's bytes nor its count. -/
def Obligations.NothingBetweenTheStepsDisturbsAPair : Prop :=
  (∀ (x : BitVec 32) (i : Instr) (s : State), s.block = .idle → ∃ r bs t,
    exec (.zigzagEncode32 x) s = .next t ∧ t.responses = s.responses ++ [.ok r 0] ∧
    (∀ tx, SinkGives t.tx .accept bs tx → writeVarI32 x s = .next { t with
      tx := tx
      responses := t.responses ++ [.ok 0 (BitVec.ofNat 4 bs.length)] }) ∧
    ∀ u tx, exec i t = .next u → u.block = .idle → SinkGives u.tx .accept bs tx →
      exec (.varintEncodeUnsigned32 (r.extractLsb' 0 32)) u =
        .next { u with tx := tx, responses := u.responses ++ [.ok 0 (BitVec.ofNat 4 bs.length)] }) ∧
  (∀ (x : BitVec 64) (i : Instr) (s : State), s.block = .idle → ∃ r bs t,
    exec (.zigzagEncode64 x) s = .next t ∧ t.responses = s.responses ++ [.ok r 0] ∧
    (∀ tx, SinkGives t.tx .accept bs tx → writeVarI64 x s = .next { t with
      tx := tx
      responses := t.responses ++ [.ok 0 (BitVec.ofNat 4 bs.length)] }) ∧
    ∀ u tx, exec i t = .next u → u.block = .idle → SinkGives u.tx .accept bs tx →
      exec (.varintEncodeUnsigned64 r) u =
        .next { u with tx := tx, responses := u.responses ++ [.ok 0 (BitVec.ofNat 4 bs.length)] })

/-! ### The whole machine -/

/-- 10_state.md R20: what a command answers and what it does to the channel depends on the command and on what the channel
answers, and on nothing else that came before. -/
def Obligations.NothingIsRememberedBetweenCommands : Prop :=
  ∀ (i : Instr) (s s' : State), s.block = .idle → s'.block = .idle → s.rx = s'.rx →
    s.tx.answers = s'.tx.answers → s.tx.after = s'.tx.after →
    ∃ b rx bs answers rs,
      exec i s = .next { block := b, rx := rx, agenda := s.agenda, responses := s.responses ++ rs,
                         tx := { written := s.tx.written ++ bs, answers := answers, after := s.tx.after } } ∧
      exec i s' = .next { block := b, rx := rx, agenda := s'.agenda, responses := s'.responses ++ rs,
                          tx := { written := s'.tx.written ++ bs, answers := answers, after := s'.tx.after } }

/-- 20_memory.md section 2 (the two access primitives), with 41_varint_encode.md R109 and 42_varint_decode.md R128: which side
of the channel each operation uses, and how much of it. That `TX` is unchanged while the one write is not answered is the
model's choice (log 17). -/
def Obligations.ChannelUseOfEachOperation : Prop :=
  ∀ (i : Instr) (s t : State), s.block = .idle → exec i s = .next t →
    (i.op.layer = .zigzag → t.rx = s.rx ∧ t.tx = s.tx) ∧
    (i.op.layer = .varint → i.op.direction = .encode → t.rx = s.rx ∧
      ((SinkSilent s.tx ∧ t.tx = s.tx) ∨
        ∃ a bs, SinkGives s.tx a bs t.tx ∧ bs.length ≤ (if i.op.width = .w32 then 5 else 9))) ∧
    (i.op.layer = .varint → i.op.direction = .decode → t.tx = s.tx ∧
      ∃ n, ReadsTo n s.rx t.rx ∧ n ≤ (if i.op.width = .w32 then 5 else 9) ∧ (t.block = .idle → 1 ≤ n))

/-- 60_exceptions.md R150: the block has no failure value of its own; a `Fail(e)` carries a value the channel reports, and
the zigzag operations never fail. -/
def Obligations.FailureValuesAreTheChannels : Prop :=
  ∀ (i : Instr) (s t : State) (e : Err), s.block = .idle → exec i s = .next t →
    t.responses = s.responses ++ [.fail e] →
    i.op.layer = .varint ∧ (i.op.direction = .decode → s.rx.mayFail e) ∧ (i.op.direction = .encode → s.tx.mayFail e)

/-- 60_exceptions.md section 1 and 00_scope.md section 4 (the parameters of a model): the block treats all failure values alike
and passes each on unchanged. At every profile and every type of failure values, renaming them, into any other type, commutes
with every command and every step; and what the machine does at any type is what it does under every renaming into `Err`, so
that a claim about it over all states at `Err` is a claim at every type. `exec` and `step` are the machine at this hardware's
profile and at `Err`. -/
def Obligations.FailureValuesPassUnchanged : Prop :=
  (∀ (p : Profile) (ε ε' : Type) (f : ε → ε') (i : Instr) (s t : State.At ε),
    execAt p i s = .next t → execAt p i (s.mapErr f) = .next (t.mapErr f)) ∧
  (∀ (p : Profile) (ε ε' : Type) (f : ε → ε') (s t : State.At ε),
    stepAt p s = .next t → stepAt p (s.mapErr f) = .next (t.mapErr f)) ∧
  (∀ (p : Profile) (ε : Type) (i : Instr) (s t : State.At ε),
    execAt p i s = .next t ↔ ∀ f : ε → Err, execAt p i (s.mapErr f) = .next (t.mapErr f)) ∧
  (∀ (p : Profile) (ε : Type) (s t : State.At ε),
    stepAt p s = .next t ↔ ∀ f : ε → Err, stepAt p (s.mapErr f) = .next (t.mapErr f)) ∧
  (∀ (i : Instr) (s : State), execAt .pDoc i s = exec i s) ∧ (∀ s : State, stepAt .pDoc s = step s)

/-- 70_reset_and_hazards.md section 4 (progress): an operation responds when its accesses are answered and
otherwise waits, busy and without a response, from its start and from every answer on; a channel that always answers gets
every operation to its response; while no answer comes only reset ends the waiting. That with no move of the host left such a
state is its own next one is the model's choice (log 7, and log 17 for `TX`). -/
def Obligations.AnOperationRespondsIffAnswered : Prop :=
  (∀ (i : Instr) (s t : State), s.block = .idle → exec i s = .next t →
    (t.block = .idle ∧ ∃ x, t.responses = s.responses ++ [x]) ∨
    (i.op.layer = .varint ∧ t.responses = s.responses ∧ ∃ op, t.block = .busy op ∧ answered op t = false)) ∧
  (∀ (i : Instr) (s : State), s.block = .idle → s.rx.after ≠ none → s.tx.after ≠ none → ∃ t x,
    exec i s = .next t ∧ t.block = .idle ∧ t.responses = s.responses ++ [x]) ∧
  (∀ (s : State) (op : InFlight), s.block = .busy op → answered op s = true → ∃ t, step s = .next t ∧
    ((t.block = .idle ∧ ∃ x, t.responses = s.responses ++ [x]) ∨
      (t.responses = s.responses ∧ ∃ op', t.block = .busy op' ∧ answered op' t = false))) ∧
  (∀ (s : State) (op : InFlight), s.block = .busy op → answered op s = false → ∃ t, step s = .next t ∧
    t.responses = s.responses ∧ (t.block = .busy op ∨ t.block = .inReset ∧ ∃ k rest, s.agenda = .assertReset k :: rest) ∧
    (s.agenda = [] → t = s))

/-- 70_reset_and_hazards.md section 3 (one command at a time): a busy block does not accept a command, which stays presented,
neither lost nor executed. That nothing else happens while the operation waits, whatever moves stand behind the command, is
the model's choice of one agenda list (log 8, with log 7), not the rule's. -/
def Obligations.CommandsAreHeldOffWhileBusy : Prop :=
  ∀ (s : State) (op : InFlight) (w : Cmd) (rest : List (HostMove Err)), s.block = .busy op → s.agenda = .issue w :: rest →
    (∃ t, step s = .next t ∧ t.agenda = s.agenda) ∧ (answered op s = false → step s = .next s)

/-- The model's own (log 8): `exec` asked for a command on a block that is not idle puts it back on the command port. -/
def Obligations.ExecHoldsOffOnABlockNotIdle : Prop :=
  ∀ (i : Instr) (s : State), s.block ≠ .idle → ∃ w, decode w = i ∧
    exec i s = .next { s with agenda := .issue w :: s.agenda }

/-- 10_state.md section 4 (an operation waits, busy, for its access and goes on when it is answered): splitting an operation
at any point where the channel was slow to answer changes nothing. The same of the four signed pseudo-operations, whose host
waits for each response (43_signed_composition.md, 70_reset_and_hazards.md section 7): answers that the host serves while it
waits come to what they come to when given from the start; and a read pair whose first command never responds, or is abandoned
by a reset, does not issue its second. The model's choices: the host's waiting (log 18); that nothing happens in a state with no
move left (log 7); and for the abandoned pair reset as two moves (log 9) that leave `RX` and `TX` as they were, the decoder's
unanswered read being withdrawn (log 16). -/
def Obligations.WaitingChangesNoResult : Prop :=
  (∀ (i : Instr) (s t : State) (op : InFlight) (as bs : List (RxAnswer Err)) (after : Option (RxAnswer Err)),
    s.block = .idle → i.op.direction = .decode → (bs ≠ [] ∨ after ≠ none) →
    exec i { s with rx := { answers := as, after := none } } = .next t → t.block = .busy op →
    step { t with rx := { answers := bs, after := after } } =
      exec i { s with rx := { answers := as ++ bs, after := after } }) ∧
  (∀ (i : Instr) (s t : State) (op : InFlight) (w : List Byte) (bs : List (TxAnswer Err)) (after : Option (TxAnswer Err)),
    s.block = .idle → i.op.direction = .encode → (bs ≠ [] ∨ after ≠ none) →
    exec i { s with tx := { written := w, answers := [], after := none } } = .next t → t.block = .busy op →
    step { t with tx := { written := w, answers := bs, after := after } } =
      exec i { s with tx := { written := w, answers := bs, after := after } }) ∧
  (∀ p ∈ [(Instr.varintDecodeUnsigned32, readVarI32), (.varintDecodeUnsigned64, readVarI64)],
    (∀ (s u : State) (as bs : List (RxAnswer Err)) (rest : List (HostMove Err)), s.block = .idle →
      exec p.1 { s with rx := { answers := as ++ bs, after := none }, agenda := rest } = .next u →
      u.block = .idle → u.rx.answers = [] →
      p.2 { s with rx := { answers := as, after := none }, agenda := bs.map .serveRx ++ rest } =
        p.2 { s with rx := { answers := as ++ bs, after := none }, agenda := rest }) ∧
    (∀ (s t : State) (op : InFlight), s.block = .idle → exec p.1 s = .next t → t.block = .busy op →
      (s.agenda = [] → p.2 s = .next t) ∧
      (∀ k rest, s.agenda = .assertReset k :: .releaseReset :: rest → p.2 s = .next { t with block := .idle, agenda := rest }))) ∧
  (∀ (x : BitVec 32) (s : State) (w : List Byte) (a : TxAnswer Err) (rest : List (HostMove Err)), s.block = .idle →
    writeVarI32 x { s with tx := { written := w, answers := [], after := none }, agenda := .serveTx a :: rest } =
      writeVarI32 x { s with tx := { written := w, answers := [a], after := none }, agenda := rest }) ∧
  (∀ (x : BitVec 64) (s : State) (w : List Byte) (a : TxAnswer Err) (rest : List (HostMove Err)), s.block = .idle →
    writeVarI64 x { s with tx := { written := w, answers := [], after := none }, agenda := .serveTx a :: rest } =
      writeVarI64 x { s with tx := { written := w, answers := [a], after := none }, agenda := rest })

/-- 70_reset_and_hazards.md section 1 (reset): while reset is asserted no command is accepted and no response given; released,
the block is idle and nothing else is cleared. That a command presented in reset stays presented, and keeps the host from its
later moves, is the model's choice (log 8), and so is the form of reset as two moves of the host, of which asserting a reset
that is asserted and releasing one that is not do nothing (log 9). -/
def Obligations.ResetHoldsTheBlock : Prop :=
  (∀ (s : State) (k : Nat) (rest : List (HostMove Err)), s.block = .idle → s.agenda = .assertReset k :: rest →
    step s = .next { s with block := .inReset, agenda := rest }) ∧
  (∀ (s : State) (w : Cmd) (rest : List (HostMove Err)), s.block = .inReset → s.agenda = .issue w :: rest →
    step s = .next s) ∧
  (∀ s t : State, s.block = .inReset → step s = .next t → t.responses = s.responses ∧
    (t.block = .inReset ∨ ∃ rest, s.agenda = .releaseReset :: rest ∧ t = { s with block := .idle, agenda := rest })) ∧
  (∀ (s : State) (rest : List (HostMove Err)), s.block = .inReset → s.agenda = .releaseReset :: rest →
    step s = .next { s with block := .idle, agenda := rest }) ∧
  (∀ (s : State) (k : Nat) (rest : List (HostMove Err)), s.block = .inReset → s.agenda = .assertReset k :: rest →
    step s = .next { s with agenda := rest }) ∧
  (∀ (s : State) (rest : List (HostMove Err)), s.block = .idle → s.agenda = .releaseReset :: rest →
    step s = .next { s with agenda := rest }) ∧
  (∀ (s : State) (op : InFlight) (rest : List (HostMove Err)), s.block = .busy op → answered op s = false →
    s.agenda = .releaseReset :: rest → step s = .next { s with agenda := rest })

/-- 70_reset_and_hazards.md section 1 (reset during an operation): reset while an operation waits abandons it without a
response; bytes already read stay read, and the one write in progress leaves a prefix. That the decoder's unanswered read takes
no byte, so that `RX` is unchanged, is the model's choice (log 16), and so are that no byte of the write was in `TX` before the
reset (log 17), the form of reset as a move of the host (log 9) and a `k` above the bytes of the write (log 6). -/
def Obligations.ResetAbandonsTheOperationInFlight : Prop :=
  ∀ (s : State) (op : InFlight) (k : Nat) (rest : List (HostMove Err)), s.block = .busy op → answered op s = false →
    s.agenda = .assertReset k :: rest → ∃ t, step s = .next t ∧ t.block = .inReset ∧ t.agenda = rest ∧
      t.responses = s.responses ∧ t.rx = s.rx ∧
      (∀ e, op = .encode32 e → t.tx = { s.tx with written := s.tx.written ++ e.buf.take k }) ∧
      (∀ e, op = .encode64 e → t.tx = { s.tx with written := s.tx.written ++ e.buf.take k }) ∧
      (∀ d, op = .decode32 d → t.tx = s.tx) ∧ (∀ d, op = .decode64 d → t.tx = s.tx)

/-- 70_reset_and_hazards.md section 7 (the host): what each of the host's moves on the channel changes, and that it changes
nothing else, on an idle block, on a block in reset, and, for the two that serve an access, while an operation waits. The
model's choices: moves stand on one agenda (log 10); a move that is for between commands waits while an operation does
(log 11); an answered access completes before the next move (log 9); with no move left nothing happens (log 7); while a write
is not answered no byte of it comes to `TX` (log 17). -/
def Obligations.HostMovesOnTheChannel : Prop :=
  (∀ (s : State) (rest : List (HostMove Err)), s.block = .idle ∨ s.block = .inReset →
    (∀ a, s.agenda = .serveRx a :: rest →
      step s = .next { s with agenda := rest, rx := { s.rx with answers := s.rx.answers ++ [a] } }) ∧
    (∀ a, s.agenda = .serveTx a :: rest →
      step s = .next { s with agenda := rest, tx := { s.tx with answers := s.tx.answers ++ [a] } }) ∧
    (∀ rx, s.agenda = .connectRx rx :: rest → step s = .next { s with agenda := rest, rx := rx }) ∧
    (∀ tx, s.agenda = .connectTx tx :: rest → step s = .next { s with agenda := rest, tx := tx }) ∧
    (∀ e, s.agenda = .loopback e :: rest →
      step s = .next { s with agenda := rest, rx := Source.ofBytes e s.tx.written }) ∧
    (s.agenda = [] → step s = .next s)) ∧
  (∀ (s : State) (op : InFlight) (rest : List (HostMove Err)), s.block = .busy op → answered op s = false →
    (∀ a, s.agenda = .serveRx a :: rest →
      step s = .next { s with agenda := rest, rx := { s.rx with answers := s.rx.answers ++ [a] } }) ∧
    (∀ a, s.agenda = .serveTx a :: rest →
      step s = .next { s with agenda := rest, tx := { s.tx with answers := s.tx.answers ++ [a] } }) ∧
    (∀ rx, s.agenda = .connectRx rx :: rest → step s = .next s) ∧
    (∀ tx, s.agenda = .connectTx tx :: rest → step s = .next s) ∧
    (∀ e, s.agenda = .loopback e :: rest → step s = .next s)) ∧
  (∀ (s : State) (op : InFlight), s.block = .busy op → answered op s = true →
    ∃ t, step s = .next t ∧ t.agenda = s.agenda)

/-- 20_memory.md R55: the list channel. -/
def Obligations.ListChannelAnswers : Prop :=
  (∀ (b : Byte) (bs : List Byte), memRead (Source.ofBytes Err.endOfData (b :: bs)) = .byte b (Source.ofBytes .endOfData bs)) ∧
  memRead (Source.ofBytes Err.endOfData []) = .failed .endOfData (Source.ofBytes .endOfData []) ∧
  (∀ w buf : List Byte, memWrite buf (Sink.ofBytes (ε := Err) w) = .done (Sink.ofBytes (w ++ buf))) ∧
  (∀ (w buf : List Byte) (k : Nat) (e : Err), memWrite buf { Sink.ofBytes w with answers := [.fail k e] } =
    .failed e (Sink.ofBytes (w ++ buf.take k)))

/-- 60_exceptions.md section 1 and 41_varint_encode.md section 3: nothing the block has written is ever taken back, and the
responses given stay given, one at most for each step. -/
def Obligations.WrittenBytesAndResponsesOnlyGrow : Prop :=
  ∀ s t : State, step s = .next t →
    (t.responses = s.responses ∨ ∃ x, t.responses = s.responses ++ [x]) ∧
    ((∀ tx rest, s.agenda ≠ .connectTx tx :: rest) → s.tx.written <+: t.tx.written)

/-- The model's own (there is no fault in the spec; 60_exceptions.md section 1, 30_encoding.md part 1): every state has a
next one. -/
def Obligations.EveryStateHasANext : Prop :=
  ∀ s : State, ∃ t, step s = .next t

/-- 30_encoding.md R66: the wires of the response port. -/
def Obligations.ResponseWires : Prop :=
  ∀ (ε : Type) [Inhabited ε] (k : Nat),
    (∀ (r : Port) (n : Count), ∃ w : Rsp ε, Response.wires k (.ok r n) = w ∧ w.st = 0 ∧ w.r = r ∧ w.n = n) ∧
    (∀ e : ε, ∃ w : Rsp ε, Response.wires k (.fail e) = w ∧ w.st = 1 ∧ w.e = e)

/-! ### Invariants -/

/-- 10_state.md sections 3 and 4, 41_varint_encode.md R101 and 42_varint_decode.md R121 (the loops): every step keeps what an
operation in flight holds sound, and gives only responses that some operation may give. -/
def Obligations.StepKeepsTheInvariant : Prop :=
  ∀ s t : State, s.Inv → step s = .next t → t.Inv

/-- 10_state.md section 6: right after reset the block is idle and the invariant holds. -/
def Obligations.ResetMeetsTheInvariant : Prop :=
  State.reset.block = .idle ∧ State.reset.Inv

/-! ### The assembler's notation -/

/-- 30_encoding.md R73: the mnemonics and the document's aliases. -/
def Obligations.MnemonicsAndAliases : Prop :=
  opOfName "zigzag_encode_32" = some .zigzagEncode32 ∧ opOfName "zigzag_decode_32" = some .zigzagDecode32 ∧
  opOfName "zigzag_encode_64" = some .zigzagEncode64 ∧ opOfName "zigzag_decode_64" = some .zigzagDecode64 ∧
  opOfName "varint_encode_unsigned_32" = some .varintEncodeUnsigned32 ∧
  opOfName "varint_decode_unsigned_32" = some .varintDecodeUnsigned32 ∧
  opOfName "varint_encode_unsigned_64" = some .varintEncodeUnsigned64 ∧
  opOfName "varint_decode_unsigned_64" = some .varintDecodeUnsigned64 ∧
  (∀ op : Op, opOfName (mnemonic op) = some op) ∧
  opOfName "write_var_u32" = some .varintEncodeUnsigned32 ∧ opOfName "write_var_u64" = some .varintEncodeUnsigned64 ∧
  opOfName "read_var_u32" = some .varintDecodeUnsigned32 ∧ opOfName "read_var_u64" = some .varintDecodeUnsigned64

/-- 30_encoding.md part 3 (syntax of a command line; log 15): a well-formed line assembles to the word of its operation and
of the number it writes, and any other line to an error. -/
def Obligations.AssembledLinesMeanWhatTheySay : Prop :=
  ∀ c : CommandLine,
    (c.wellFormed = false → assemble c = none) ∧
    (c.wellFormed = true → ∃ w, assemble c = some w ∧ (decode w).op = c.op ∧
      (∀ z, c.operand = some (.dec z) → operandValue (decode w) = some z) ∧
      (∀ p, c.operand = some (.hex p) → (cmdA w).toNat = p) ∧
      (c.operand = none → cmdA w = 0 ∧ operandValue (decode w) = none))
end

