-- ==== Sys2Proof/Laws/Decode.lean ====
section
/-! SUPPORT. The fields of a command word put together from them. -/

namespace Sys2Proof

@[simp] theorem cmdOp_append (op : BitVec 3) (a : Port) : cmdOp (op ++ a) = op := by
  ext i hi
  simp only [cmdOp, BitVec.getElem_extractLsb', BitVec.getLsbD_append]
  rw [if_neg (by omega), Nat.add_sub_cancel_left, BitVec.getLsbD_eq_getElem hi]

@[simp] theorem cmdA_append (op : BitVec 3) (a : Port) : cmdA (op ++ a) = a := by
  ext i hi
  simp only [cmdA, BitVec.getElem_extractLsb', BitVec.getLsbD_append, Nat.zero_add]
  rw [if_pos hi, BitVec.getLsbD_eq_getElem hi]

/-- A command word is its two fields. -/
theorem fields_append (w : Cmd) : cmdOp w ++ cmdA w = w := by
  apply BitVec.eq_of_getLsbD_eq
  intro i hi
  simp only [cmdOp, cmdA, BitVec.getLsbD_append, BitVec.getLsbD_extractLsb']
  split
  · simp [*]
  · rename_i h
    rw [show 64 + (i - 64) = i by omega, decide_eq_true (show i - 64 < 3 by omega), Bool.true_and]

@[simp] theorem operand32_setWidth (x : BitVec 32) : operand32 (x.setWidth 64) = x := by
  apply BitVec.eq_of_getLsbD_eq
  intro i hi
  simp only [operand32, BitVec.getLsbD_extractLsb', BitVec.getLsbD_setWidth, Nat.zero_add]
  rw [decide_eq_true hi, decide_eq_true (show i < 64 by omega), Bool.true_and, Bool.true_and]

/-- Decoding a word put together from its fields. -/
theorem decode_append (op : BitVec 3) (a : Port) : decode (op ++ a) =
    match op.getLsbD 2, op.getLsbD 1, op.getLsbD 0 with
    | false, false, false => .zigzagEncode32 (operand32 a)
    | false, false, true => .zigzagDecode32 (operand32 a)
    | false, true, false => .zigzagEncode64 a
    | false, true, true => .zigzagDecode64 a
    | true, false, false => .varintEncodeUnsigned32 (operand32 a)
    | true, false, true => .varintDecodeUnsigned32
    | true, true, false => .varintEncodeUnsigned64 a
    | true, true, true => .varintDecodeUnsigned64 := by
  rw [decode, cmdOp_append, cmdA_append] <;> rfl

end Sys2Proof
end

