-- ==== Sys2Proof/Laws/State.lean ====
section
/-! SUPPORT. What each named update of the state leaves in each field, true by rfl, so that no later proof unfolds a
record update. -/

namespace Sys2Proof.Machine

variable {ε : Type}

variable (s : State.At ε)

@[simp] theorem respond_block (x : Response ε) : (respond x s).block = .idle := rfl
@[simp] theorem respond_rx (x : Response ε) : (respond x s).rx = s.rx := rfl
@[simp] theorem respond_tx (x : Response ε) : (respond x s).tx = s.tx := rfl
@[simp] theorem respond_agenda (x : Response ε) : (respond x s).agenda = s.agenda := rfl
@[simp] theorem respond_responses (x : Response ε) : (respond x s).responses = s.responses ++ [x] := rfl

@[simp] theorem respondOk_block (r : Port) (n : Count) : (respondOk r n s).block = .idle := rfl
@[simp] theorem respondOk_rx (r : Port) (n : Count) : (respondOk r n s).rx = s.rx := rfl
@[simp] theorem respondOk_tx (r : Port) (n : Count) : (respondOk r n s).tx = s.tx := rfl
@[simp] theorem respondOk_agenda (r : Port) (n : Count) : (respondOk r n s).agenda = s.agenda := rfl
@[simp] theorem respondOk_responses (r : Port) (n : Count) : (respondOk r n s).responses = s.responses ++ [.ok r n] := rfl

@[simp] theorem raiseChannelFailure_block (e : ε) : (raiseChannelFailure e s).block = .idle := rfl
@[simp] theorem raiseChannelFailure_rx (e : ε) : (raiseChannelFailure e s).rx = s.rx := rfl
@[simp] theorem raiseChannelFailure_tx (e : ε) : (raiseChannelFailure e s).tx = s.tx := rfl
@[simp] theorem raiseChannelFailure_agenda (e : ε) : (raiseChannelFailure e s).agenda = s.agenda := rfl
@[simp] theorem raiseChannelFailure_responses (e : ε) : (raiseChannelFailure e s).responses = s.responses ++ [.fail e] := rfl

@[simp] theorem await_block (op : InFlight) : (await op s).block = .busy op := rfl
@[simp] theorem await_rx (op : InFlight) : (await op s).rx = s.rx := rfl
@[simp] theorem await_tx (op : InFlight) : (await op s).tx = s.tx := rfl
@[simp] theorem await_agenda (op : InFlight) : (await op s).agenda = s.agenda := rfl
@[simp] theorem await_responses (op : InFlight) : (await op s).responses = s.responses := rfl

@[simp] theorem holdOff_block (i : Instr) : (holdOff i s).block = s.block := rfl
@[simp] theorem holdOff_rx (i : Instr) : (holdOff i s).rx = s.rx := rfl
@[simp] theorem holdOff_tx (i : Instr) : (holdOff i s).tx = s.tx := rfl
@[simp] theorem holdOff_agenda (i : Instr) : (holdOff i s).agenda = .issue (encode i) :: s.agenda := rfl
@[simp] theorem holdOff_responses (i : Instr) : (holdOff i s).responses = s.responses := rfl

@[simp] theorem serveRx_block (a : RxAnswer ε) : (serveRx a s).block = s.block := rfl
@[simp] theorem serveRx_rx (a : RxAnswer ε) : (serveRx a s).rx = { s.rx with answers := s.rx.answers ++ [a] } := rfl
@[simp] theorem serveRx_tx (a : RxAnswer ε) : (serveRx a s).tx = s.tx := rfl
@[simp] theorem serveRx_agenda (a : RxAnswer ε) : (serveRx a s).agenda = s.agenda := rfl
@[simp] theorem serveRx_responses (a : RxAnswer ε) : (serveRx a s).responses = s.responses := rfl

@[simp] theorem serveTx_block (a : TxAnswer ε) : (serveTx a s).block = s.block := rfl
@[simp] theorem serveTx_rx (a : TxAnswer ε) : (serveTx a s).rx = s.rx := rfl
@[simp] theorem serveTx_tx (a : TxAnswer ε) : (serveTx a s).tx = { s.tx with answers := s.tx.answers ++ [a] } := rfl
@[simp] theorem serveTx_agenda (a : TxAnswer ε) : (serveTx a s).agenda = s.agenda := rfl
@[simp] theorem serveTx_responses (a : TxAnswer ε) : (serveTx a s).responses = s.responses := rfl

@[simp] theorem loopback_block (e : ε) : (loopback e s).block = s.block := rfl
@[simp] theorem loopback_rx (e : ε) : (loopback e s).rx = Source.ofBytes e s.tx.written := rfl
@[simp] theorem loopback_tx (e : ε) : (loopback e s).tx = s.tx := rfl
@[simp] theorem loopback_agenda (e : ε) : (loopback e s).agenda = s.agenda := rfl
@[simp] theorem loopback_responses (e : ε) : (loopback e s).responses = s.responses := rfl

@[simp] theorem presentCommand_block (w : Cmd) : (presentCommand w s).block = .idle := rfl
@[simp] theorem presentCommand_rx (w : Cmd) : (presentCommand w s).rx = s.rx := rfl
@[simp] theorem presentCommand_tx (w : Cmd) : (presentCommand w s).tx = s.tx := rfl
@[simp] theorem presentCommand_agenda (w : Cmd) : (presentCommand w s).agenda = .issue w :: s.agenda := rfl
@[simp] theorem presentCommand_responses (w : Cmd) : (presentCommand w s).responses = s.responses := rfl

variable (tx : Sink ε)

@[simp] theorem abandonWrite_written (buf : List Byte) (k : Nat) :
    (abandonWrite buf k tx).written = tx.written ++ buf.take k := rfl
@[simp] theorem abandonWrite_answers (buf : List Byte) (k : Nat) : (abandonWrite buf k tx).answers = tx.answers := rfl
@[simp] theorem abandonWrite_after (buf : List Byte) (k : Nat) : (abandonWrite buf k tx).after = tx.after := rfl

@[simp] theorem reset_block : State.reset.block = .idle := rfl
@[simp] theorem reset_agenda : State.reset.agenda = [] := rfl
@[simp] theorem reset_responses : State.reset.responses = [] := rfl

end Sys2Proof.Machine
end

