-- ==== Sys2Proof/Laws/Ops.lean ====
section
/-! SUPPORT. One lemma per shared operation that says everything it can do. -/

namespace Sys2Proof.Machine

variable {ε : Type}

/-! ### Reading -/

theorem memRead_of_gives {rx rx' : Source ε} {a : RxAnswer ε} (h : SourceGives rx a rx') :
    memRead rx = readAnswer a rx' := by
  obtain ⟨as, ha, rfl⟩ | ⟨ha, hb, rfl⟩ := h <;> simp [memRead, *]

theorem memRead_of_silent {rx : Source ε} (h : SourceSilent rx) : memRead rx = .noAnswer := by
  obtain ⟨ha, hb⟩ := h
  simp [memRead, *]

/-- A source answers the next read or is silent. -/
theorem source_gives_or_silent (rx : Source ε) : (∃ a rx', SourceGives rx a rx') ∨ SourceSilent rx := by
  obtain ⟨as, after⟩ := rx
  cases as with
  | cons a as => exact .inl ⟨a, _, .inl ⟨as, rfl, rfl⟩⟩
  | nil =>
    cases after with
    | none => exact .inr ⟨rfl, rfl⟩
    | some a => exact .inl ⟨a, _, .inr ⟨rfl, rfl, rfl⟩⟩

theorem memRead_eq_byte_iff {rx rx' : Source ε} {b : Byte} :
    memRead rx = .byte b rx' ↔ SourceGives rx (.byte b) rx' := by
  refine ⟨fun h => ?_, memRead_of_gives⟩
  obtain ⟨a, r, hg⟩ | hs := source_gives_or_silent rx
  · rw [memRead_of_gives hg] at h
    cases a <;> cases h
    exact hg
  · rw [memRead_of_silent hs] at h
    cases h

theorem memRead_eq_failed_iff {rx rx' : Source ε} {e : ε} :
    memRead rx = .failed e rx' ↔ SourceGives rx (.fail e) rx' := by
  refine ⟨fun h => ?_, memRead_of_gives⟩
  obtain ⟨a, r, hg⟩ | hs := source_gives_or_silent rx
  · rw [memRead_of_gives hg] at h
    cases a <;> cases h
    exact hg
  · rw [memRead_of_silent hs] at h
    cases h

theorem memRead_eq_noAnswer_iff {rx : Source ε} : memRead rx = .noAnswer ↔ SourceSilent rx := by
  refine ⟨fun h => ?_, memRead_of_silent⟩
  obtain ⟨a, r, hg⟩ | hs := source_gives_or_silent rx
  · rw [memRead_of_gives hg] at h
    cases a <;> cases h
  · exact hs

/-- A source that is asked for a byte gives one, fails, or is silent. -/
theorem source_cases (rx : Source ε) :
    (∃ b rx', SourceGives rx (.byte b) rx') ∨ (∃ e rx', SourceGives rx (.fail e) rx') ∨ SourceSilent rx := by
  cases h : memRead rx with
  | byte b rx' => exact .inl ⟨b, rx', memRead_eq_byte_iff.1 h⟩
  | failed e rx' => exact .inr (.inl ⟨e, rx', memRead_eq_failed_iff.1 h⟩)
  | noAnswer => exact .inr (.inr (memRead_eq_noAnswer_iff.1 h))

/-- A script of bytes supplies them. -/
theorem supplies_bytes (bs : List Byte) (as : List (RxAnswer ε)) (after : Option (RxAnswer ε)) :
    Supplies { answers := bs.map .byte ++ as, after := after } bs { answers := as, after := after } := by
  induction bs with
  | nil => rfl
  | cons b bs ih => exact ⟨_, .inl ⟨_, rfl, rfl⟩, ih⟩

theorem supplies_append {bs cs : List Byte} {rx rx' : Source ε} :
    Supplies rx (bs ++ cs) rx' ↔ ∃ mid, Supplies rx bs mid ∧ Supplies mid cs rx' := by
  induction bs generalizing rx with
  | nil => simp [Supplies]
  | cons b bs ih =>
    simp only [List.cons_append, Supplies, ih]
    constructor
    · rintro ⟨n, h, m, h₁, h₂⟩; exact ⟨m, ⟨n, h, h₁⟩, h₂⟩
    · rintro ⟨m, ⟨n, h, h₁⟩, h₂⟩; exact ⟨n, h, m, h₁, h₂⟩

/-! ### Writing -/

/-- The bytes of `buf` that reach the sink when a write of it gets the answer `a`. -/
def TxAnswer.taken (buf : List Byte) : TxAnswer ε → List Byte
  | .accept => buf
  | .fail k _ => buf.take k

/-- The outcome of a write that gets the answer `a` and leaves the sink `tx`. -/
def TxAnswer.outcome (tx : Sink ε) : TxAnswer ε → WriteResult ε
  | .accept => .done tx
  | .fail _ e => .failed e tx

theorem memWrite_of_gives {buf : List Byte} {tx tx' : Sink ε} {a : TxAnswer ε} (h : SinkGives tx a (a.taken buf) tx') :
    memWrite buf tx = a.outcome tx' := by
  obtain ⟨as, ha, rfl⟩ | ⟨ha, hb, rfl⟩ := h <;> cases a <;>
    simp [memWrite, writeAnswer, TxAnswer.taken, TxAnswer.outcome, *]

theorem memWrite_of_silent {buf : List Byte} {tx : Sink ε} (h : SinkSilent tx) : memWrite buf tx = .noAnswer := by
  obtain ⟨ha, hb⟩ := h
  simp [memWrite, *]

/-- A sink answers the next write, of whatever bytes, or is silent. -/
theorem sink_gives_or_silent (buf : List Byte) (tx : Sink ε) :
    (∃ a tx', SinkGives tx a (a.taken buf) tx') ∨ SinkSilent tx := by
  obtain ⟨w, as, after⟩ := tx
  cases as with
  | cons a as => exact .inl ⟨a, _, .inl ⟨as, rfl, rfl⟩⟩
  | nil =>
    cases after with
    | none => exact .inr ⟨rfl, rfl⟩
    | some a => exact .inl ⟨a, _, .inr ⟨rfl, rfl, rfl⟩⟩

theorem memWrite_eq_done_iff {buf : List Byte} {tx tx' : Sink ε} :
    memWrite buf tx = .done tx' ↔ SinkGives tx .accept buf tx' := by
  refine ⟨fun h => ?_, fun h => memWrite_of_gives (a := .accept) h⟩
  obtain ⟨a, t, hg⟩ | hs := sink_gives_or_silent buf tx
  · rw [memWrite_of_gives hg] at h
    cases a <;> cases h
    exact hg
  · rw [memWrite_of_silent hs] at h
    cases h

theorem memWrite_eq_failed {buf : List Byte} {tx tx' : Sink ε} {k : Nat} {e : ε}
    (h : SinkGives tx (.fail k e) (buf.take k) tx') : memWrite buf tx = .failed e tx' :=
  memWrite_of_gives (a := .fail k e) h

theorem memWrite_eq_failed_iff {buf : List Byte} {tx tx' : Sink ε} {e : ε} :
    memWrite buf tx = .failed e tx' ↔ ∃ k, SinkGives tx (.fail k e) (buf.take k) tx' := by
  refine ⟨fun h => ?_, fun ⟨k, h⟩ => memWrite_eq_failed h⟩
  obtain ⟨a, t, hg⟩ | hs := sink_gives_or_silent buf tx
  · rw [memWrite_of_gives hg] at h
    cases a <;> cases h
    exact ⟨_, hg⟩
  · rw [memWrite_of_silent hs] at h
    cases h

theorem memWrite_eq_noAnswer_iff {buf : List Byte} {tx : Sink ε} : memWrite buf tx = .noAnswer ↔ SinkSilent tx := by
  refine ⟨fun h => ?_, memWrite_of_silent⟩
  obtain ⟨a, t, hg⟩ | hs := sink_gives_or_silent buf tx
  · rw [memWrite_of_gives hg] at h
    cases a <;> cases h
  · exact hs

/-! ### Responding -/

/-- A response on an idle block adds itself to the responses, and changes nothing else. -/
theorem respond_idle {x : Response ε} {s : State.At ε} (h : s.block = .idle) :
    respond x s = { s with responses := s.responses ++ [x] } := by simp [respond, ← h]

/-! ### Accepting a command -/

theorem whenIdle_idle {i : Instr} {run : State.At ε → State.At ε} {s : State.At ε} (h : s.block = .idle) :
    whenIdle i run s = .next (run s) := by simp [whenIdle, h]

theorem whenIdle_held {i : Instr} {run : State.At ε → State.At ε} {s : State.At ε} (h : s.block ≠ .idle) :
    whenIdle i run s = .next (holdOff i s) := by
  unfold whenIdle
  cases hb : s.block <;> simp_all

/-- Every command answers a next state. -/
theorem exec_next (i : Instr) (s : State) : ∃ t, exec i s = .next t := by
  cases i <;> exact ⟨_, rfl⟩

theorem exec_held {i : Instr} {s : State} (h : s.block ≠ .idle) : exec i s = .next (holdOff i s) := by
  cases i <;> exact whenIdle_held h

/-- Whatever an encoder's one write comes to: success, a failure, or no answer. -/
theorem encFinish_cases {W : Nat} (pending : EncState W → InFlight) (e : EncState W) (s : State.At ε) :
    (∃ tx, SinkGives s.tx .accept e.buf tx ∧
        encFinish pending e s = respondOk 0 (toCount (e.i + 1)) { s with tx := tx }) ∨
      (∃ k err tx, SinkGives s.tx (.fail k err) (e.buf.take k) tx ∧
        encFinish pending e s = raiseChannelFailure err { s with tx := tx }) ∨
      (SinkSilent s.tx ∧ encFinish pending e s = await (pending e) s) := by
  unfold encFinish
  cases h : memWrite e.buf s.tx with
  | done tx => exact .inl ⟨tx, memWrite_eq_done_iff.1 h, rfl⟩
  | failed err tx =>
    obtain ⟨k, hk⟩ := memWrite_eq_failed_iff.1 h
    exact .inr (.inl ⟨k, err, tx, hk, rfl⟩)
  | noAnswer => exact .inr (.inr ⟨memWrite_eq_noAnswer_iff.1 h, rfl⟩)

theorem encFinish_done {W : Nat} {pending : EncState W → InFlight} {e : EncState W} {s : State.At ε} {tx : Sink ε}
    (h : SinkGives s.tx .accept e.buf tx) :
    encFinish pending e s = respondOk 0 (toCount (e.i + 1)) { s with tx := tx } := by
  simp [encFinish, memWrite_eq_done_iff.2 h]

theorem encFinish_failed {W : Nat} {pending : EncState W → InFlight} {e : EncState W} {s : State.At ε} {tx : Sink ε} {k : Nat}
    {err : ε} (h : SinkGives s.tx (.fail k err) (e.buf.take k) tx) :
    encFinish pending e s = raiseChannelFailure err { s with tx := tx } := by
  simp [encFinish, memWrite_eq_failed h]

theorem encFinish_silent {W : Nat} {pending : EncState W → InFlight} {e : EncState W} {s : State.At ε}
    (h : SinkSilent s.tx) : encFinish pending e s = await (pending e) s := by
  simp [encFinish, memWrite_eq_noAnswer_iff.2 h]

/-! ### Streams that will answer -/

theorem Source.answering_eq_false_iff {rx : Source ε} : rx.answering = false ↔ SourceSilent rx := by
  rw [← memRead_eq_noAnswer_iff, Source.answering]
  cases memRead rx <;> simp

theorem Sink.answering_eq_false_iff {tx : Sink ε} : tx.answering = false ↔ SinkSilent tx := by
  rw [← memWrite_eq_noAnswer_iff (buf := []), Sink.answering]
  cases memWrite [] tx <;> simp

end Sys2Proof.Machine
end

