-- ==== Sys2Proof/Laws/PerInstr.lean ====
section
/-! SUPPORT. The statement that is made of every command: its word carries its op code, and zeros in every bit of the
operand port that takes no part (30_encoding.md R62, R64, R74). -/

namespace Sys2Proof.Laws.CommandWord

/-- The command word of `i`: its op code stands in bits 66:64, and the operand bits that take no part are zero. -/
def Statement (i : Instr) : Prop :=
  i.wellFormed = true ∧ cmdOp (encode i) = i.op.code ∧ cmdA (encode i) &&& ~~~i.op.operandMask = 0

theorem low32_only (x : BitVec 32) : x.setWidth 64 &&& ~~~(0x00000000FFFFFFFF : Port) = 0 := by
  rw [← BitVec.toNat_inj, BitVec.toNat_and, BitVec.toNat_setWidth,
    show (~~~(0x00000000FFFFFFFF : Port)).toNat = (2 ^ 32 - 1) <<< 32 by decide]
  apply Nat.eq_of_testBit_eq
  intro i
  have hx : x.toNat % 2 ^ 64 < 2 ^ 32 := by have := x.isLt; omega
  by_cases h : i < 32
  · rw [Nat.testBit_and, Nat.testBit_shiftLeft, decide_eq_false (show ¬ i ≥ 32 by omega), Bool.false_and, Bool.and_false,
      show (0 : Port).toNat = 0 from rfl, Nat.zero_testBit]
  · rw [Nat.testBit_and, Nat.testBit_lt_two_pow (Nat.lt_of_lt_of_le hx (Nat.pow_le_pow_right (by decide) (by omega)))]
    simp

theorem all_bits (a : Port) : a &&& ~~~(0xFFFFFFFFFFFFFFFF : Port) = 0 := BitVec.and_zero

theorem zigzagEncode32 (x : BitVec 32) : Statement (.zigzagEncode32 x) :=
  ⟨rfl, cmdOp_append _ _, by rw [encode, cmdA_append]; exact low32_only x⟩

theorem zigzagDecode32 (u : BitVec 32) : Statement (.zigzagDecode32 u) :=
  ⟨rfl, cmdOp_append _ _, by rw [encode, cmdA_append]; exact low32_only u⟩

theorem zigzagEncode64 (x : BitVec 64) : Statement (.zigzagEncode64 x) :=
  ⟨rfl, cmdOp_append _ _, by rw [encode, cmdA_append]; exact all_bits _⟩

theorem zigzagDecode64 (u : BitVec 64) : Statement (.zigzagDecode64 u) :=
  ⟨rfl, cmdOp_append _ _, by rw [encode, cmdA_append]; exact all_bits _⟩

theorem varintEncodeUnsigned32 (x : BitVec 32) : Statement (.varintEncodeUnsigned32 x) :=
  ⟨rfl, cmdOp_append _ _, by rw [encode, cmdA_append]; exact low32_only x⟩

theorem varintDecodeUnsigned32 : Statement .varintDecodeUnsigned32 :=
  ⟨rfl, cmdOp_append _ _, by rw [encode, cmdA_append]; exact BitVec.zero_and⟩

theorem varintEncodeUnsigned64 (x : BitVec 64) : Statement (.varintEncodeUnsigned64 x) :=
  ⟨rfl, cmdOp_append _ _, by rw [encode, cmdA_append]; exact all_bits _⟩

theorem varintDecodeUnsigned64 : Statement .varintDecodeUnsigned64 :=
  ⟨rfl, cmdOp_append _ _, by rw [encode, cmdA_append]; exact BitVec.zero_and⟩

end Sys2Proof.Laws.CommandWord
end

