-- ==== Sys2Proof/Laws/Step.lean ====
section
/-! SUPPORT. Everything one step can do: resume the operation in flight, run the command presented, or make the host's
next move. -/

namespace Sys2Proof.Machine

variable {ε : Type}

/-- A resumed operation is the one in flight, and its access has been answered. -/
theorem nextAction_resume {s : State.At ε} {op : InFlight} (h : nextAction s = .resume op) :
    s.block = .busy op ∧ answered op s = true := by
  unfold nextAction moveIdle moveBusy moveInReset at h
  split at h
  · split at h <;> cases h
  · rename_i op' hb
    split at h
    · cases h; exact ⟨hb, by assumption⟩
    · split at h <;> cases h
  · split at h <;> cases h

/-- A command that is run was presented to an idle block. -/
theorem nextAction_run {s t : State.At ε} {i : Instr} (h : nextAction s = .run i t) :
    s.block = .idle ∧ ∃ w rest, s.agenda = .issue w :: rest ∧ i = decode w ∧ t = { s with agenda := rest } := by
  unfold nextAction moveIdle moveBusy moveInReset at h
  split at h
  · split at h <;> cases h
    exact ⟨by assumption, _, _, by assumption, rfl, rfl⟩
  · split at h
    · cases h
    · split at h <;> cases h
  · split at h <;> cases h

/-- A move of the host: nothing, or the first of the agenda, which is no command. -/
theorem nextAction_move {s t : State.At ε} (h : nextAction s = .move t) :
    t = s ∨ ∃ m rest, s.agenda = m :: rest ∧
      ((∃ a, m = .serveRx a ∧ t = serveRx a { s with agenda := rest }) ∨
        (∃ a, m = .serveTx a ∧ t = serveTx a { s with agenda := rest }) ∨
        (∃ rx, m = .connectRx rx ∧ t = { s with agenda := rest, rx := rx }) ∨
        (∃ tx, m = .connectTx tx ∧ t = { s with agenda := rest, tx := tx }) ∨
        (∃ e, m = .loopback e ∧ t = loopback e { s with agenda := rest }) ∨
        (∃ k, m = .assertReset k ∧ t = assertReset k { s with agenda := rest }) ∨
        (m = .releaseReset ∧ t = releaseReset { s with agenda := rest })) := by
  unfold nextAction moveIdle moveBusy moveInReset at h
  split at h
  · split at h <;> cases h <;> first | exact .inl rfl | exact .inr ⟨_, _, by assumption, by simp⟩
  · split at h
    · cases h
    · split at h <;> cases h <;> first | exact .inl rfl | exact .inr ⟨_, _, by assumption, by simp⟩
  · split at h <;> cases h <;> first | exact .inl rfl | exact .inr ⟨_, _, by assumption, by simp⟩

/-- `exec` is the machine at this hardware's profile and at `Err`. -/
theorem execAt_profile (i : Instr) (s : State) : execAt profile i s = exec i s := by
  cases i <;> rfl

theorem stepAt_profile (s : State) : stepAt profile s = step s := by
  unfold stepAt step
  cases nextAction s <;> simp [execAt_profile]

/-- Everything a step can do, at any profile. -/
theorem stepAt_cases (p : Profile) (s : State.At ε) :
    (∃ op, nextAction s = .resume op ∧ stepAt p s = .next (resume p op s)) ∨
      (∃ i t, nextAction s = .run i t ∧ stepAt p s = execAt p i t) ∨ (∃ t, nextAction s = .move t ∧ stepAt p s = .next t) := by
  unfold stepAt
  cases nextAction s with
  | resume op => exact .inl ⟨op, rfl, rfl⟩
  | run i t => exact .inr (.inl ⟨i, t, rfl, rfl⟩)
  | move t => exact .inr (.inr ⟨t, rfl, rfl⟩)

/-- Everything a step can do. -/
theorem step_cases (s : State) :
    (∃ op, nextAction s = .resume op ∧ step s = .next (resume profile op s)) ∨
      (∃ i t, nextAction s = .run i t ∧ step s = exec i t) ∨ (∃ t, nextAction s = .move t ∧ step s = .next t) := by
  simpa only [stepAt_profile, execAt_profile] using stepAt_cases profile s

end Sys2Proof.Machine
end

