-- ==== Sys2Proof/Laws/WireFormat.lean ====
section
/-! SUPPORT. The arithmetic of the wire format: what `wireBytes` writes, and that `groups` reads it back. -/

namespace Sys2Proof.Machine

theorem continues_iff (b : Byte) : continues b = true ↔ 128 ≤ b.toNat := by
  simp only [continues, BitVec.getLsbD, Nat.testBit, Nat.shiftRight_eq_div_pow]
  have := b.isLt
  have h : b.toNat / 2 ^ 7 = 0 ∨ b.toNat / 2 ^ 7 = 1 := by omega
  rcases h with h | h <;> simp only [h] <;> simp <;> omega

theorem continues_eq_false_iff (b : Byte) : continues b = false ↔ b.toNat < 128 := by
  have := continues_iff b
  cases h : continues b <;> simp_all

/-! ### `groups` -/

theorem groups_append (xs ys : List Byte) : groups (xs ++ ys) = groups xs + 128 ^ xs.length * groups ys := by
  induction xs with
  | nil => simp [groups]
  | cons x xs ih => simp only [List.cons_append, groups, ih, List.length_cons, pow_succ]; ring

theorem groups_lt (xs : List Byte) : groups xs < 128 ^ xs.length := by
  induction xs with
  | nil => simp [groups]
  | cons x xs ih =>
    simp only [groups, List.length_cons, pow_succ]
    have := Nat.mod_lt x.toNat (show 0 < 128 by decide)
    omega

/-! ### `wireBytes` -/

theorem wireBytes_last {bound v : Nat} (h : v / 128 = 0) : wireBytes (bound + 1) v = [BitVec.ofNat 8 (v % 128)] := by
  simp [wireBytes, h]

theorem wireBytes_bound {v : Nat} (h : v / 128 ≠ 0) : wireBytes 1 v = [BitVec.ofNat 8 (v % 128 + 128)] := by
  simp only [wireBytes, if_neg h, if_true]

theorem wireBytes_more {bound v : Nat} (h : v / 128 ≠ 0) :
    wireBytes (bound + 2) v = BitVec.ofNat 8 (v % 128 + 128) :: wireBytes (bound + 1) (v / 128) := by
  rw [wireBytes, if_neg h, if_neg (by omega)]

/-- The three ways a byte is written: the last of the value, the last allowed, or one that more follow. -/
theorem wireBytes_induction {motive : Nat → Nat → Prop}
    (last : ∀ bound v, v / 128 = 0 → motive (bound + 1) v)
    (full : ∀ v, v / 128 ≠ 0 → motive 1 v)
    (more : ∀ bound v, v / 128 ≠ 0 → motive (bound + 1) (v / 128) → motive (bound + 2) v) :
    ∀ bound v, motive (bound + 1) v := by
  intro bound
  induction bound with
  | zero =>
    intro v
    by_cases h : v / 128 = 0
    · exact last 0 v h
    · exact full v h
  | succ n ih =>
    intro v
    by_cases h : v / 128 = 0
    · exact last (n + 1) v h
    · exact more n v h (ih _)

theorem wireBytes_length_pos (bound v : Nat) : 0 < (wireBytes (bound + 1) v).length := by
  refine wireBytes_induction (motive := fun b v => 0 < (wireBytes b v).length) ?last ?full ?more bound v
  case last => intro b v h; simp [wireBytes_last h]
  case full => intro v h; simp [wireBytes_bound h]
  case more => intro b v h _; simp [wireBytes_more h]

theorem wireBytes_length_le (bound v : Nat) : (wireBytes (bound + 1) v).length ≤ bound + 1 := by
  refine wireBytes_induction (motive := fun b v => (wireBytes b v).length ≤ b) ?last ?full ?more bound v
  case last => intro b v h; simp [wireBytes_last h]
  case full => intro v h; simp [wireBytes_bound h]
  case more => intro b v h ih; simp only [wireBytes_more h, List.length_cons]; omega

theorem toNat_ofNat_mod (v : Nat) : (BitVec.ofNat 8 (v % 128)).toNat = v % 128 := by
  simp only [BitVec.toNat_ofNat]; omega

theorem toNat_ofNat_mod_add (v : Nat) : (BitVec.ofNat 8 (v % 128 + 128)).toNat = v % 128 + 128 := by
  simp only [BitVec.toNat_ofNat]; omega

/-- The groups of what is written are the value, cut at seven bits for each byte allowed. -/
theorem groups_wireBytes (bound v : Nat) : groups (wireBytes (bound + 1) v) = v % 128 ^ (bound + 1) := by
  refine wireBytes_induction (motive := fun b v => groups (wireBytes b v) = v % 128 ^ b) ?last ?full ?more bound v
  case last =>
    intro b v h
    have hv : v < 128 := by omega
    have : 128 ≤ 128 ^ (b + 1) := by rw [pow_succ]; have := Nat.pow_pos (n := b) (show 0 < 128 by decide); omega
    rw [wireBytes_last h, groups, toNat_ofNat_mod, groups, Nat.mod_eq_of_lt (show v < 128 ^ (b + 1) by omega)]
    omega
  case full => intro v h; rw [wireBytes_bound h, groups, toNat_ofNat_mod_add, groups]; omega
  case more =>
    intro b v h ih
    rw [wireBytes_more h, groups, toNat_ofNat_mod_add, ih, show b + 2 = (b + 1) + 1 from rfl, pow_succ 128 (b + 1),
      Nat.mul_comm (128 ^ (b + 1)) 128, Nat.mod_mul]
    omega

/-- What is written is exactly one value, of a length that the value fixes. -/
theorem wireBytes_ends (bound v : Nat) :
    ∃ init last, wireBytes (bound + 1) v = init ++ [last] ∧ EndsValue (bound + 1) init last ∧
      (continues last = true ↔ 128 ^ (init.length + 1) ≤ v) ∧ (0 < init.length → 128 ^ init.length ≤ v) := by
  refine wireBytes_induction (motive := fun b v =>
      ∃ init last, wireBytes b v = init ++ [last] ∧ EndsValue b init last ∧
        (continues last = true ↔ 128 ^ (init.length + 1) ≤ v) ∧ (0 < init.length → 128 ^ init.length ≤ v)) ?last ?full ?more bound v
  case last =>
    intro b v h
    have hc : continues (BitVec.ofNat 8 (v % 128)) = false := by
      rw [continues_eq_false_iff, toNat_ofNat_mod]; omega
    exact ⟨[], _, wireBytes_last h, ⟨by simp, by simp, .inl hc⟩, by simp [hc]; omega, by simp⟩
  case full =>
    intro v h
    refine ⟨[], _, wireBytes_bound h, ⟨by simp, by simp, .inr rfl⟩, ?_, by simp⟩
    rw [continues_iff, toNat_ofNat_mod_add, List.length_nil, Nat.zero_add, pow_one]
    omega
  case more =>
    intro b v h ih
    obtain ⟨init, last, he, ⟨hl, hi, hlast⟩, hc, hp⟩ := ih
    refine ⟨BitVec.ofNat 8 (v % 128 + 128) :: init, last, by rw [wireBytes_more h, he]; rfl, ⟨?_, ?_, ?_⟩, ?_, ?_⟩
    · simp only [List.length_cons]; omega
    · intro x hx
      rcases List.mem_cons.1 hx with rfl | hx
      · rw [continues_iff, toNat_ofNat_mod_add]; omega
      · exact hi x hx
    · exact hlast.imp_right fun h' => by simp only [List.length_cons]; omega
    · rw [hc, List.length_cons, pow_succ 128 (init.length + 1), Nat.le_div_iff_mul_le (by decide)]
    · intro _
      simp only [List.length_cons, pow_succ]
      rcases Nat.eq_zero_or_pos init.length with h0 | h0
      · simp only [h0, pow_zero]; omega
      · have := hp h0; omega

end Sys2Proof.Machine
end

