-- ==== Sys2Proof/Laws/VarintDecode.lean ====
section
/-! SUPPORT. What the decoder's loop does with the bytes a source supplies, and the number it comes to. -/

namespace Sys2Proof.Machine

variable {ε : Type}

/-- A decoder after the bytes `bs`, had each said that more follow. -/
def DecState.after {W : Nat} (bound : Nat) (last : Byte) : DecState W → List Byte → DecState W
  | d, [] => d
  | d, b :: bs => DecState.after bound last { decTake bound last b d with i := d.i + 1 } bs

@[simp] theorem DecState.after_i {W : Nat} (bound : Nat) (last : Byte) (d : DecState W) (bs : List Byte) :
    (d.after bound last bs).i = d.i + bs.length := by
  induction bs generalizing d with
  | nil => rfl
  | cons b bs ih => simp only [DecState.after, ih, List.length_cons]; omega

theorem DecState.after_append {W : Nat} (bound : Nat) (last : Byte) (d : DecState W) (bs cs : List Byte) :
    d.after bound last (bs ++ cs) = (d.after bound last bs).after bound last cs := by
  induction bs generalizing d with
  | nil => rfl
  | cons b bs ih => exact ih _

/-- Bytes that all say more follow take the loop on. -/
theorem decLoop_more {W : Nat} {bound : Nat} {last : Byte} {bs : List Byte} {fuel : Nat} {d : DecState W}
    {rx rx' : Source ε} (hs : Supplies rx bs rx') (hc : ∀ b ∈ bs, continues b = true)
    (hi : d.i + bs.length < bound) :
    decLoop bound last (fuel + bs.length) d rx = decLoop bound last fuel (d.after bound last bs) rx' := by
  induction bs generalizing d rx with
  | nil => cases hs; rfl
  | cons b bs ih =>
    obtain ⟨mid, hg, hs⟩ := hs
    have hb : continues b = true := hc b (by simp)
    simp only [List.length_cons] at hi
    have hne : ¬ d.i + 1 = bound := by omega
    rw [List.length_cons, ← Nat.add_assoc, decLoop, memRead_eq_byte_iff.2 hg]
    simp only [hb, hne, or_self, if_false, Bool.true_eq_false]
    exact ih hs (fun x hx => hc x (by simp [hx])) (by simp only; omega)

/-- The bytes of exactly one value end the loop with the accumulator they leave. -/
theorem decLoop_value {W : Nat} {bound : Nat} {last : Byte} {init : List Byte} {b : Byte} {d : DecState W}
    {rx rx' : Source ε} (hs : Supplies rx (init ++ [b]) rx') (hc : ∀ x ∈ init, continues x = true)
    (hi : d.i + init.length < bound) (hb : continues b = false ∨ d.i + init.length + 1 = bound) :
    decLoop bound last (bound - d.i) d rx = .value (d.after bound last (init ++ [b])).acc rx' := by
  obtain ⟨mid, hs, next, hg, rfl⟩ := supplies_append.1 hs
  obtain ⟨fuel, hf⟩ : ∃ fuel, bound - d.i = (fuel + 1) + init.length := ⟨bound - d.i - init.length - 1, by omega⟩
  rw [hf, decLoop_more hs hc hi, decLoop, memRead_eq_byte_iff.2 hg, DecState.after_append]
  have : continues b = false ∨ (d.after bound last init).i + 1 = bound := by simpa using hb
  simp only [this, if_true]
  rfl

/-- A failed read after bytes that all say more follow ends the loop. -/
theorem decLoop_failed {W : Nat} {bound : Nat} {last : Byte} {init : List Byte} {e : ε} {d : DecState W}
    {rx mid rx' : Source ε} (hs : Supplies rx init mid) (hc : ∀ x ∈ init, continues x = true)
    (hi : d.i + init.length < bound) (hg : SourceGives mid (.fail e) rx') :
    decLoop bound last (bound - d.i) d rx = .failed e rx' := by
  obtain ⟨fuel, hf⟩ : ∃ fuel, bound - d.i = (fuel + 1) + init.length := ⟨bound - d.i - init.length - 1, by omega⟩
  rw [hf, decLoop_more hs hc hi, decLoop, memRead_eq_failed_iff.2 hg]

/-- A silent source after bytes that all say more follow leaves the decoder waiting. -/
theorem decLoop_waiting {W : Nat} {bound : Nat} {last : Byte} {init : List Byte} {d : DecState W}
    {rx mid : Source ε} (hs : Supplies rx init mid) (hc : ∀ x ∈ init, continues x = true)
    (hi : d.i + init.length < bound) (hg : SourceSilent mid) :
    decLoop bound last (bound - d.i) d rx = .waiting (d.after bound last init) mid := by
  obtain ⟨fuel, hf⟩ : ∃ fuel, bound - d.i = (fuel + 1) + init.length := ⟨bound - d.i - init.length - 1, by omega⟩
  rw [hf, decLoop_more hs hc hi, decLoop, memRead_eq_noAnswer_iff.2 hg]

/-- What a source does to a decoder that may yet read `n + 1` bytes: it supplies the bytes of exactly one value, or it
fails or falls silent after bytes that all say more follow. -/
theorem source_value_cases (n : Nat) (rx : Source ε) :
    (∃ init b rx', Supplies rx (init ++ [b]) rx' ∧ EndsValue (n + 1) init b) ∨
      (∃ init e mid rx', Supplies rx init mid ∧ init.length < n + 1 ∧ (∀ x ∈ init, continues x = true) ∧
        SourceGives mid (.fail e) rx') ∨
      (∃ init mid, Supplies rx init mid ∧ init.length < n + 1 ∧ (∀ x ∈ init, continues x = true) ∧ SourceSilent mid) := by
  induction n generalizing rx with
  | zero =>
    rcases source_cases rx with ⟨b, rx', h⟩ | ⟨e, rx', h⟩ | h
    · exact .inl ⟨[], b, rx', ⟨rx', h, rfl⟩, by simp [EndsValue]⟩
    · exact .inr (.inl ⟨[], e, rx, rx', rfl, by simp, by simp, h⟩)
    · exact .inr (.inr ⟨[], rx, rfl, by simp, by simp, h⟩)
  | succ n ih =>
    rcases source_cases rx with ⟨b, next, h⟩ | ⟨e, rx', h⟩ | h
    · cases hb : continues b with
      | false => exact .inl ⟨[], b, next, ⟨next, h, rfl⟩, by simp [EndsValue, hb]⟩
      | true =>
        rcases ih next with ⟨init, c, rx', hs, hl, hc, he⟩ | ⟨init, e, mid, rx', hs, hl, hc, hg⟩ | ⟨init, mid, hs, hl, hc, hg⟩
        · refine .inl ⟨b :: init, c, rx', ⟨next, h, hs⟩, ?_, ?_, ?_⟩
          · simp only [List.length_cons]; omega
          · simpa [hb] using hc
          · exact he.imp_right fun h' => by simp only [List.length_cons]; omega
        · exact .inr (.inl ⟨b :: init, e, mid, rx', ⟨next, h, hs⟩, by simpa using hl, by simpa [hb] using hc, hg⟩)
        · exact .inr (.inr ⟨b :: init, mid, ⟨next, h, hs⟩, by simpa using hl, by simpa [hb] using hc, hg⟩)
    · exact .inr (.inl ⟨[], e, rx, rx', rfl, by simp, by simp, h⟩)
    · exact .inr (.inr ⟨[], rx, rfl, by simp, by simp, h⟩)

/-! ### The number -/

/-- The number that masked bytes hold from index `i` on. -/
def maskedGroups (bound : Nat) (last : Byte) : Nat → List Byte → Nat
  | _, [] => 0
  | i, b :: bs => (b &&& decMask bound last i).toNat + 128 * maskedGroups bound last (i + 1) bs

theorem and_low7 (b : Byte) : (b &&& 0x7F).toNat = b.toNat % 128 := by
  rw [BitVec.toNat_and]
  exact Nat.and_two_pow_sub_one_eq_mod b.toNat 7

theorem and_all (b : Byte) : (b &&& 0xFF).toNat = b.toNat := by
  rw [BitVec.toNat_and]
  exact (Nat.and_two_pow_sub_one_eq_mod b.toNat 8).trans (Nat.mod_eq_of_lt b.isLt)

/-- Taking a byte into an accumulator whose used bits lie below `7 * i` adds it at offset `7 * i`. -/
theorem decTake_toNat {W bound : Nat} {last b : Byte} {d : DecState W} (h : d.acc.toNat < 2 ^ (7 * d.i)) :
    (decTake bound last b d).acc.toNat =
      (d.acc.toNat + 2 ^ (7 * d.i) * (b &&& decMask bound last d.i).toNat) % 2 ^ W := by
  generalize hg : b &&& decMask bound last d.i = g
  have h₁ : (g.toNat <<< (7 * d.i) ||| d.acc.toNat) = g.toNat <<< (7 * d.i) + d.acc.toNat :=
    (Nat.shiftLeft_add_eq_or_of_lt h g.toNat).symm
  have h₂ : (g.toNat % 2 ^ W) <<< (7 * d.i) % 2 ^ W = g.toNat <<< (7 * d.i) % 2 ^ W := by
    simp [Nat.shiftLeft_eq, Nat.mod_mul_mod]
  calc (decTake bound last b d).acc.toNat
      = d.acc.toNat ||| (g.toNat % 2 ^ W) <<< (7 * d.i) % 2 ^ W := by simp [decTake, hg]
    _ = d.acc.toNat % 2 ^ W ||| g.toNat <<< (7 * d.i) % 2 ^ W := by rw [h₂, Nat.mod_eq_of_lt d.acc.isLt]
    _ = (d.acc.toNat ||| g.toNat <<< (7 * d.i)) % 2 ^ W := (Nat.or_mod_two_pow).symm
    _ = _ := by rw [Nat.or_comm, h₁, Nat.shiftLeft_eq, Nat.add_comm, Nat.mul_comm]

theorem decTake_lt {W bound : Nat} {last b : Byte} {d : DecState W} (h : d.acc.toNat < 2 ^ (7 * d.i))
    (hi : d.i + 1 ≠ bound) : (decTake bound last b d).acc.toNat < 2 ^ (7 * (d.i + 1)) := by
  rw [decTake_toNat h]
  refine Nat.lt_of_le_of_lt (Nat.mod_le _ _) ?_
  simp only [decMask, if_neg hi, and_low7]
  have := Nat.mod_lt b.toNat (show 0 < 128 by decide)
  rw [show 7 * (d.i + 1) = 7 * d.i + 7 by omega, pow_add]
  nlinarith

/-- The accumulator after a run of bytes. -/
theorem DecState.after_acc {W bound : Nat} {last : Byte} {bs : List Byte} {d : DecState W}
    (h : d.acc.toNat < 2 ^ (7 * d.i)) (hl : d.i + bs.length ≤ bound) :
    (d.after bound last bs).acc.toNat = (d.acc.toNat + 2 ^ (7 * d.i) * maskedGroups bound last d.i bs) % 2 ^ W := by
  induction bs generalizing d with
  | nil => simp [DecState.after, maskedGroups, Nat.mod_eq_of_lt d.acc.isLt]
  | cons b bs ih =>
    simp only [List.length_cons] at hl
    simp only [DecState.after, maskedGroups]
    cases bs with
    | nil => simp [DecState.after, maskedGroups, decTake_toNat h]
    | cons c cs =>
      simp only [List.length_cons] at hl
      have hne : d.i + 1 ≠ bound := by omega
      rw [ih (d := { decTake bound last b d with i := d.i + 1 }) (decTake_lt h hne) (by simp only [List.length_cons]; omega)]
      simp only [decTake_toNat h, Nat.mod_add_mod]
      rw [show 7 * (d.i + 1) = 7 * d.i + 7 by omega, pow_add]
      congr 1
      ring

/-- While bytes say more follow, the used bits stay below the next offset. -/
theorem DecState.after_lt {W bound : Nat} {last : Byte} {bs : List Byte} {d : DecState W}
    (h : d.acc.toNat < 2 ^ (7 * d.i)) (hl : d.i + bs.length < bound) :
    (d.after bound last bs).acc.toNat < 2 ^ (7 * (d.i + bs.length)) := by
  induction bs generalizing d with
  | nil => exact h
  | cons b bs ih =>
    simp only [List.length_cons] at hl ⊢
    have := ih (d := { decTake bound last b d with i := d.i + 1 }) (decTake_lt h (by omega)) (by simp only; omega)
    rwa [show d.i + (bs.length + 1) = d.i + 1 + bs.length by omega]

theorem maskedGroups_low7 (bound : Nat) (bs : List Byte) (i : Nat) : maskedGroups bound 0x7F i bs = groups bs := by
  induction bs generalizing i with
  | nil => rfl
  | cons b bs ih => rw [maskedGroups, groups, ih, decMask, ite_self, and_low7]

theorem maskedGroups_short {bound : Nat} {last : Byte} {bs : List Byte} {i : Nat} (h : i + bs.length < bound) :
    maskedGroups bound last i bs = groups bs := by
  induction bs generalizing i with
  | nil => rfl
  | cons b bs ih =>
    simp only [List.length_cons] at h
    have hne : i + 1 ≠ bound := by omega
    rw [maskedGroups, groups, ih (i := i + 1) (by omega), decMask, if_neg hne, and_low7]

theorem maskedGroups_append (bound : Nat) (last : Byte) (xs ys : List Byte) (i : Nat) :
    maskedGroups bound last i (xs ++ ys) =
      maskedGroups bound last i xs + 128 ^ xs.length * maskedGroups bound last (i + xs.length) ys := by
  induction xs generalizing i with
  | nil => simp [maskedGroups]
  | cons x xs ih =>
    simp only [List.cons_append, maskedGroups, ih, List.length_cons, pow_succ,
      show i + 1 + xs.length = i + (xs.length + 1) by omega]
    ring

theorem maskedGroups_64 {init : List Byte} {b : Byte} (h : init.length < 9) :
    maskedGroups 9 0xFF 0 (init ++ [b]) = value64 init b := by
  unfold value64
  split
  · rename_i h8
    rw [maskedGroups_append, maskedGroups_short (by omega), h8, maskedGroups, decMask, if_pos rfl, and_all, maskedGroups]
    norm_num
  · exact maskedGroups_short (by simp only [List.length_append, List.length_singleton]; omega)

theorem start_lt (W : Nat) : (DecState.start W).acc.toNat < 2 ^ (7 * (DecState.start W).i) := by simp [DecState.start]

/-- The accumulator of the 32-bit decoder after bytes it may take. -/
theorem after32_acc {bs : List Byte} (h : bs.length ≤ 5) :
    ((DecState.start 32).after 5 0x7F bs).acc = BitVec.ofNat 32 (groups bs) := by
  rw [← BitVec.toNat_inj, DecState.after_acc (start_lt 32) (by simpa [DecState.start] using h), maskedGroups_low7]
  simp [DecState.start]

/-- The accumulator of the 64-bit decoder after the bytes of one value. -/
theorem after64_acc {init : List Byte} {b : Byte} (h : init.length < 9) :
    ((DecState.start 64).after 9 0xFF (init ++ [b])).acc = BitVec.ofNat 64 (value64 init b) := by
  rw [← BitVec.toNat_inj, DecState.after_acc (start_lt 64)
    (by simp only [DecState.start, List.length_append, List.length_singleton]; omega)]
  simp only [DecState.start, maskedGroups_64 h]
  simp

/-! ### The two decoders -/

/-- The 32-bit decoder, run on an idle block. -/
theorem exec_decode32 {s : State} (h : s.block = .idle) :
    exec .varintDecodeUnsigned32 s = .next (decRun .decode32 5 0x7F (DecState.start 32) s) := whenIdle_idle h

/-- The 64-bit decoder, run on an idle block. -/
theorem exec_decode64 {s : State} (h : s.block = .idle) :
    exec .varintDecodeUnsigned64 s = .next (decRun .decode64 9 0xFF (DecState.start 64) s) := whenIdle_idle h

theorem decRun_value {W bound : Nat} {pending : DecState W → InFlight} {last : Byte} {init : List Byte} {b : Byte}
    {d : DecState W} {s : State.At ε} {rx' : Source ε} (hs : Supplies s.rx (init ++ [b]) rx')
    (hc : ∀ x ∈ init, continues x = true) (hi : d.i + init.length < bound)
    (hb : continues b = false ∨ d.i + init.length + 1 = bound) :
    decRun pending bound last d s =
      respondOk (toPort (d.after bound last (init ++ [b])).acc) 0 { s with rx := rx' } := by
  simp only [decRun, decLoop_value hs hc hi hb]

theorem decRun_failed {W bound : Nat} {pending : DecState W → InFlight} {last : Byte} {init : List Byte} {e : ε}
    {d : DecState W} {s : State.At ε} {mid rx' : Source ε} (hs : Supplies s.rx init mid) (hc : ∀ x ∈ init, continues x = true)
    (hi : d.i + init.length < bound) (hg : SourceGives mid (.fail e) rx') :
    decRun pending bound last d s = raiseChannelFailure e { s with rx := rx' } := by
  simp only [decRun, decLoop_failed hs hc hi hg]

theorem decRun_waiting {W bound : Nat} {pending : DecState W → InFlight} {last : Byte} {init : List Byte}
    {d : DecState W} {s : State.At ε} {mid : Source ε} (hs : Supplies s.rx init mid) (hc : ∀ x ∈ init, continues x = true)
    (hi : d.i + init.length < bound) (hg : SourceSilent mid) :
    decRun pending bound last d s = await (pending (d.after bound last init)) { s with rx := mid } := by
  simp only [decRun, decLoop_waiting hs hc hi hg]

/-- Everything a decoder's run can do from a decoder state that may yet read. -/
theorem decRun_cases {W bound : Nat} (pending : DecState W → InFlight) (last : Byte) {d : DecState W} (s : State.At ε)
    (hd : d.i < bound) :
    (∃ init b rx, Supplies s.rx (init ++ [b]) rx ∧ EndsValue (bound - d.i) init b ∧
        decRun pending bound last d s = respondOk (toPort (d.after bound last (init ++ [b])).acc) 0 { s with rx := rx }) ∨
      (∃ init e mid rx, Supplies s.rx init mid ∧ d.i + init.length < bound ∧ (∀ x ∈ init, continues x = true) ∧
        SourceGives mid (.fail e) rx ∧ decRun pending bound last d s = raiseChannelFailure e { s with rx := rx }) ∨
      (∃ init mid, Supplies s.rx init mid ∧ d.i + init.length < bound ∧ (∀ x ∈ init, continues x = true) ∧
        SourceSilent mid ∧ decRun pending bound last d s = await (pending (d.after bound last init)) { s with rx := mid }) := by
  obtain ⟨n, hn⟩ : ∃ n, bound - d.i = n + 1 := ⟨bound - d.i - 1, by omega⟩
  rcases source_value_cases n s.rx with ⟨init, b, rx, hs, he⟩ | ⟨init, e, mid, rx, hs, hl, hc, hg⟩ | ⟨init, mid, hs, hl, hc, hg⟩
  · obtain ⟨hl, hc, hb⟩ := id he
    exact .inl ⟨init, b, rx, hs, by rwa [hn], decRun_value hs hc (by omega) (hb.imp_right fun h' => by omega)⟩
  · exact .inr (.inl ⟨init, e, mid, rx, hs, by omega, hc, hg, decRun_failed hs hc (by omega) hg⟩)
  · exact .inr (.inr ⟨init, mid, hs, by omega, hc, hg, decRun_waiting hs hc (by omega) hg⟩)

/-- One read of a decoder: it goes on, ends, fails or waits. -/
theorem decRun_step {W bound : Nat} {last : Byte} (pending : DecState W → InFlight) {d : DecState W} (s : State.At ε)
    (h : d.i < bound) :
    decRun pending bound last d s = match memRead s.rx with
      | .byte b rx =>
        if continues b = false ∨ d.i + 1 = bound then respondOk (toPort (decTake bound last b d).acc) 0 { s with rx := rx }
        else decRun pending bound last { decTake bound last b d with i := d.i + 1 } { s with rx := rx }
      | .failed e rx => raiseChannelFailure e { s with rx := rx }
      | .noAnswer => await (pending d) s := by
  rw [decRun, show bound - d.i = bound - (d.i + 1) + 1 by omega, decLoop]
  cases memRead s.rx with
  | byte b rx => by_cases hc : continues b = false ∨ d.i + 1 = bound <;> simp [hc, decRun]
  | failed e rx => rfl
  | noAnswer => rfl

end Sys2Proof.Machine
end

