-- ==== Sys2Proof/Laws/Pseudo.lean ====
section
/-! SUPPORT. What the host's waiting comes to, and what a pair of commands does. -/

namespace Sys2Proof.Machine

variable {ε : Type} (p : Profile)

@[simp] theorem onNext_next (t : State.At ε) (next : State.At ε → Host.Outcome (State.At ε) Fault Refusal) :
    onNext (.next t) next = next t := rfl

theorem waitIdle_idle {s : State.At ε} (fuel : Nat) (h : s.block = .idle) : waitIdle p fuel s = .next s := by
  cases fuel <;> simp [waitIdle, h]

theorem waitIdle_stays {s : State.At ε} (fuel : Nat) (h : stepAt p s = .next s) : waitIdle p fuel s = .next s := by
  induction fuel with
  | zero => rfl
  | succ fuel ih => cases hb : s.block <;> simp [waitIdle, hb, h, ih]

theorem waitIdle_succ {s t : State.At ε} (fuel : Nat) (h : s.block ≠ .idle) (ht : stepAt p s = .next t) :
    waitIdle p (fuel + 1) s = waitIdle p fuel t := by
  cases hb : s.block <;> simp_all [waitIdle]

theorem hostWait_idle {s : State.At ε} (h : s.block = .idle) : hostWait p s = .next s := waitIdle_idle p _ h

/-- An operation that goes on responds, or waits again for an access that is not answered. -/
theorem resume_cases (op : InFlight) (s : State.At ε) :
    (resume p op s).agenda = s.agenda ∧
      ((resume p op s).block = .idle ∨ ∃ op', (resume p op s).block = .busy op' ∧ answered op' (resume p op s) = false) := by
  have enc : ∀ {W : Nat} (q : EncState W → InFlight) (e : EncState W),
      (∀ t : State.At ε, answered (q e) t = t.tx.answering) →
      (encFinish q e s).agenda = s.agenda ∧ ((encFinish q e s).block = .idle ∨
        ∃ op', (encFinish q e s).block = .busy op' ∧ answered op' (encFinish q e s) = false) := by
    intro W q e hp
    rcases encFinish_cases q e s with ⟨tx, -, he⟩ | ⟨k, er, tx, -, he⟩ | ⟨hs, he⟩ <;> rw [he]
    · exact ⟨rfl, .inl rfl⟩
    · exact ⟨rfl, .inl rfl⟩
    · exact ⟨rfl, .inr ⟨_, rfl, by simpa [hp] using Sink.answering_eq_false_iff.2 hs⟩⟩
  have dec : ∀ {W : Nat} (q : DecState W → InFlight) (bound : Nat) (m : Byte) (d : DecState W),
      (∀ (d : DecState W) (t : State.At ε), answered (q d) t = t.rx.answering) →
      (decRun q bound m d s).agenda = s.agenda ∧ ((decRun q bound m d s).block = .idle ∨
        ∃ op', (decRun q bound m d s).block = .busy op' ∧ answered op' (decRun q bound m d s) = false) := by
    intro W q bound m d hp
    by_cases h : d.i < bound
    · rcases decRun_cases q m (d := d) s h with ⟨_, _, _, -, -, he⟩ | ⟨_, _, _, _, -, -, -, -, he⟩ | ⟨_, mid, -, -, -, hg, he⟩ <;>
        rw [he]
      · exact ⟨rfl, .inl rfl⟩
      · exact ⟨rfl, .inl rfl⟩
      · exact ⟨rfl, .inr ⟨_, rfl, by simpa [hp] using Source.answering_eq_false_iff.2 hg⟩⟩
    · rw [decRun, show bound - d.i = 0 by omega]
      exact ⟨rfl, .inl rfl⟩
  cases op with
  | encode32 e => exact enc .encode32 e fun _ => rfl
  | encode64 e => exact enc .encode64 e fun _ => rfl
  | decode32 d => exact dec .decode32 _ _ d fun _ _ => rfl
  | decode64 d => exact dec .decode64 _ _ d fun _ _ => rfl

/-- The steps of a block that is not idle: an operation whose access has been answered goes on, or the agenda gets shorter,
or nothing happens. -/
theorem step_not_idle {s : State.At ε} (h : s.block ≠ .idle) :
    (∃ op, s.block = .busy op ∧ answered op s = true ∧ stepAt p s = .next (resume p op s)) ∨
      (∃ t, stepAt p s = .next t ∧ t.agenda.length + 1 = s.agenda.length) ∨ stepAt p s = .next s := by
  obtain ⟨op, ha, hs⟩ | ⟨i, t, ha, -⟩ | ⟨t, ha, hs⟩ := stepAt_cases p s
  · exact .inl ⟨op, (nextAction_resume ha).1, (nextAction_resume ha).2, hs⟩
  · exact absurd (nextAction_run ha).1 h
  · obtain rfl | ⟨m, rest, hm, hc⟩ := nextAction_move ha
    · exact .inr (.inr hs)
    · refine .inr (.inl ⟨t, hs, ?_⟩)
      have hr : t.agenda = rest := by
        rcases hc with ⟨_, -, rfl⟩ | ⟨_, -, rfl⟩ | ⟨_, -, rfl⟩ | ⟨_, -, rfl⟩ | ⟨_, -, rfl⟩ | ⟨_, -, rfl⟩ | ⟨-, rfl⟩
        · rfl
        · rfl
        · rfl
        · rfl
        · rfl
        · simp only [assertReset]; split <;> rfl
        · simp only [releaseReset]; split <;> rfl
      simp [hr, hm]

/-- The fuel is enough: when the host has waited, the block is idle or nothing more happens. -/
theorem hostWait_ends (s : State.At ε) : ∃ t, hostWait p s = .next t ∧ (t.block = .idle ∨ stepAt p t = .next t) := by
  suffices H : ∀ (fuel : Nat) (s : State.At ε), 2 * s.agenda.length ≤ fuel →
      (∀ op, s.block = .busy op → answered op s = true → 2 * s.agenda.length + 1 ≤ fuel) →
      ∃ t, waitIdle p fuel s = .next t ∧ (t.block = .idle ∨ stepAt p t = .next t) from
    H _ s (by omega) fun _ _ _ => by omega
  intro fuel
  induction fuel with
  | zero =>
    intro s hl hb
    refine ⟨s, rfl, ?_⟩
    by_cases h : s.block = .idle
    · exact .inl h
    · obtain ⟨op, hop, ha, -⟩ | ⟨t, -, ht⟩ | hs := step_not_idle p h
      · exact absurd (hb op hop ha) (by omega)
      · omega
      · exact .inr hs
  | succ fuel ih =>
    intro s hl hb
    by_cases h : s.block = .idle
    · exact ⟨s, waitIdle_idle p _ h, .inl h⟩
    · obtain ⟨op, hop, ha, hn⟩ | ⟨t, hn, ht⟩ | hn := step_not_idle p h
      · rw [waitIdle_succ p fuel h hn]
        have hf := hb op hop ha
        obtain ⟨hag, hi | ⟨op', hop', ha'⟩⟩ := resume_cases p op s
        · exact ⟨_, waitIdle_idle p _ hi, .inl hi⟩
        · refine ih _ (by rw [hag]; omega) fun op'' h₁ h₂ => ?_
          rw [hop'] at h₁
          cases h₁
          rw [ha'] at h₂
          cases h₂
      · rw [waitIdle_succ p fuel h hn]
        exact ih t (by omega) fun _ _ _ => by omega
      · exact ⟨s, waitIdle_stays p _ hn, .inr hn⟩

/-- A pair begun on an idle block, by what its first command has come to. -/
theorem pair_idle {first : Instr} {second : Port → Instr} {s t : State.At ε} (h : s.block = .idle)
    (ht : issueAndWait p first s = .next t) :
    pair p first second s = match t.responses[s.responses.length]? with
      | some (.ok r _) => issueAndWait p (second r) t
      | some (.fail _) => .next t
      | none => .next t := by
  rcases hr : t.responses[s.responses.length]? with _ | x
  · simp [pair, hostWait_idle p h, h, ht, hr]
  · cases x <;> simp [pair, hostWait_idle p h, h, ht, hr]

end Sys2Proof.Machine
end

