-- ==== Sys2Proof/Laws/VarintEncode.lean ====
section
/-! SUPPORT. The encoder's loop forms the bytes `wireBytes` says, and an encoder is sound when it comes to its write. -/

namespace Sys2Proof.Machine

variable {ε : Type}

theorem payload_toNat {W : Nat} (v : BitVec W) : (payload v).toNat = v.toNat % 128 := by
  simp only [payload, BitVec.toNat_setWidth, BitVec.extractLsb'_toNat, Nat.shiftRight_zero]; omega

theorem shift7_eq_zero_iff {W : Nat} (v : BitVec W) : v >>> 7 = 0 ↔ v.toNat / 128 = 0 := by
  rw [← BitVec.toNat_inj]
  simp [BitVec.toNat_ushiftRight, Nat.shiftRight_eq_div_pow]

theorem or_high (b : Byte) (h : b.toNat < 128) : (b ||| 0x80).toNat = b.toNat + 128 := by
  have := Nat.two_pow_add_eq_or_of_lt (i := 7) (b := b.toNat) h 1
  rw [BitVec.toNat_or, Nat.or_comm]
  simpa [Nat.add_comm] using this.symm

theorem encByte_eq {W : Nat} (v : BitVec W) :
    encByte v = if v.toNat / 128 = 0 then BitVec.ofNat 8 (v.toNat % 128) else BitVec.ofNat 8 (v.toNat % 128 + 128) := by
  have hp := payload_toNat v
  unfold encByte
  by_cases h : v.toNat / 128 = 0
  · rw [if_pos ((shift7_eq_zero_iff v).2 h), if_pos h, ← BitVec.toNat_inj, hp, toNat_ofNat_mod]
  · rw [if_neg (fun h' => h ((shift7_eq_zero_iff v).1 h')), if_neg h, ← BitVec.toNat_inj, or_high _ (by omega), hp,
      toNat_ofNat_mod_add]

/-- What the encoder's loop does from any point: it appends the bytes of what remains, and leaves. -/
theorem encLoop_spec {W : Nat} (bound fuel : Nat) (e : EncState W) (h : e.i + (fuel + 1) = bound) :
    (encLoop bound (fuel + 1) e).buf = e.buf ++ wireBytes (fuel + 1) e.v.toNat ∧
      (encLoop bound (fuel + 1) e).i + 1 = e.i + (wireBytes (fuel + 1) e.v.toNat).length ∧
      ((encLoop bound (fuel + 1) e).v = 0 ∨ (encLoop bound (fuel + 1) e).i + 1 = bound) := by
  induction fuel generalizing e with
  | zero =>
    have hb : e.i + 1 = bound := by omega
    rw [encLoop]
    simp only [hb, or_true, if_true, encByte_eq]
    by_cases hv : e.v.toNat / 128 = 0
    · simp [wireBytes_last hv, hv, hb]
    · simp [wireBytes_bound hv, hv, hb]
  | succ n ih =>
    have hb : ¬ e.i + 1 = bound := by omega
    rw [encLoop]
    simp only [hb, or_false, encByte_eq]
    by_cases hv : e.v.toNat / 128 = 0
    · simp [wireBytes_last hv, hv, (shift7_eq_zero_iff e.v).2 hv]
    · have hz : ¬ e.v >>> 7 = 0 := fun h' => hv ((shift7_eq_zero_iff e.v).1 h')
      have hd : (e.v >>> 7).toNat = e.v.toNat / 128 := by
        simp [BitVec.toNat_ushiftRight, Nat.shiftRight_eq_div_pow]
      simp only [hz, if_false, hv]
      obtain ⟨h₁, h₂, h₃⟩ := ih { v := e.v >>> 7, i := e.i + 1, buf := e.buf ++ [BitVec.ofNat 8 (e.v.toNat % 128 + 128)] }
        (by simp only; omega)
      refine ⟨?_, ?_, h₃⟩
      · rw [h₁, wireBytes_more hv, hd]; simp
      · rw [h₂, wireBytes_more hv, hd]; simp only [List.length_cons]; omega

/-- An encoder comes to its write with the bytes of its value, and sound. -/
theorem encForm_spec {W : Nat} (bound : Nat) (x : BitVec W) :
    (encForm (bound + 1) x).buf = wireBytes (bound + 1) x.toNat ∧
      (encForm (bound + 1) x).i + 1 = (wireBytes (bound + 1) x.toNat).length ∧ (encForm (bound + 1) x).Sound (bound + 1) := by
  obtain ⟨h₁, h₂, h₃⟩ := encLoop_spec (bound + 1) bound (EncState.start x) (by simp [EncState.start])
  have hb : (encForm (bound + 1) x).buf = wireBytes (bound + 1) x.toNat := by simpa [encForm, EncState.start] using h₁
  have hi : (encForm (bound + 1) x).i + 1 = (wireBytes (bound + 1) x.toNat).length := by simpa [encForm, EncState.start] using h₂
  refine ⟨hb, hi, by rw [hb, hi], h₃, ?_⟩
  obtain ⟨init, last, he, hends, -⟩ := wireBytes_ends bound x.toNat
  exact ⟨init, last, by rw [hb, he], hends⟩

@[simp] theorem encForm32_buf (x : BitVec 32) : (encForm (maxB profile .w32) x).buf = wireBytes 5 x.toNat :=
  (encForm_spec 4 x).1

@[simp] theorem encForm64_buf (x : BitVec 64) : (encForm (maxB profile .w64) x).buf = wireBytes 9 x.toNat :=
  (encForm_spec 8 x).1

theorem encForm32_count (x : BitVec 32) :
    toCount ((encForm (maxB profile .w32) x).i + 1) = BitVec.ofNat 4 (wireBytes 5 x.toNat).length :=
  congrArg _ (encForm_spec 4 x).2.1

theorem encForm64_count (x : BitVec 64) :
    toCount ((encForm (maxB profile .w64) x).i + 1) = BitVec.ofNat 4 (wireBytes 9 x.toNat).length :=
  congrArg _ (encForm_spec 8 x).2.1

/-- The 32-bit encoder, run on an idle block. -/
theorem exec_encode32 {x : BitVec 32} {s : State} (h : s.block = .idle) :
    exec (.varintEncodeUnsigned32 x) s = .next (encFinish .encode32 (encForm (maxB profile .w32) x) s) := whenIdle_idle h

/-- The 64-bit encoder, run on an idle block. -/
theorem exec_encode64 {x : BitVec 64} {s : State} (h : s.block = .idle) :
    exec (.varintEncodeUnsigned64 x) s = .next (encFinish .encode64 (encForm (maxB profile .w64) x) s) := whenIdle_idle h

end Sys2Proof.Machine
end

