-- ==== Sys2Proof/Laws/Zigzag.lean ====
section
/-! SUPPORT. The zigzag transform in exact integers, and that its two directions undo each other. -/

namespace Sys2Proof.Machine

variable {ε : Type}

theorem toInt_range {W : Nat} (x : BitVec (W + 1)) : -(2 ^ W : Int) ≤ x.toInt ∧ x.toInt < 2 ^ W := by
  have h₁ := BitVec.toInt_lt (x := x)
  have h₂ := BitVec.le_toInt (x := x)
  simp only [Nat.add_sub_cancel] at h₁ h₂
  exact ⟨by simpa using h₂, by simpa using h₁⟩

theorem zigzag_range {W : Nat} (x : BitVec (W + 1)) : 0 ≤ zigzag x.toInt ∧ zigzag x.toInt < 2 ^ (W + 1) := by
  have := toInt_range x
  rw [pow_succ]
  unfold zigzag
  split <;> omega

theorem unzigzag_range {W : Nat} (u : BitVec (W + 1)) :
    -(2 ^ W : Int) ≤ unzigzag u.toNat ∧ unzigzag u.toNat < 2 ^ W := by
  have h : (u.toNat : Int) < 2 ^ W * 2 := by exact_mod_cast (by simpa [pow_succ] using u.isLt)
  unfold unzigzag
  split <;> omega

/-- The unsigned integer a zigzag encoding is. -/
theorem zigzagEncode_toNat {W : Nat} (x : BitVec (W + 1)) : ((zigzagEncode x).toNat : Int) = zigzag x.toInt := by
  obtain ⟨h₀, h₁⟩ := zigzag_range x
  simp only [zigzagEncode, truncW, sval, BitVec.toNat_ofInt]
  rw [Int.emod_eq_of_lt h₀ (by exact_mod_cast h₁), Int.toNat_of_nonneg h₀]

/-- The signed integer a zigzag decoding is. -/
theorem zigzagDecode_toInt {W : Nat} (u : BitVec (W + 1)) : (zigzagDecode u).toInt = unzigzag u.toNat := by
  obtain ⟨h₀, h₁⟩ := unzigzag_range u
  simp only [zigzagDecode, truncW, BitVec.toInt_ofInt]
  apply Int.bmod_eq_of_le_mul_two <;> push_cast <;> rw [pow_succ] <;> omega

theorem unzigzag_zigzag (s : Int) : unzigzag (zigzag s).toNat = s := by
  unfold zigzag unzigzag
  split <;> split <;> omega

theorem zigzag_unzigzag (u : Nat) : zigzag (unzigzag u) = u := by
  unfold zigzag unzigzag
  split <;> split <;> omega

theorem zigzagDecode_encode {W : Nat} (x : BitVec (W + 1)) : zigzagDecode (zigzagEncode x) = x := by
  rw [← BitVec.toInt_inj, zigzagDecode_toInt]
  have : (zigzagEncode x).toNat = (zigzag x.toInt).toNat := by
    have := zigzagEncode_toNat x
    omega
  rw [this, unzigzag_zigzag]

theorem zigzagEncode_decode {W : Nat} (u : BitVec (W + 1)) : zigzagEncode (zigzagDecode u) = u := by
  rw [← BitVec.toNat_inj]
  have := zigzagEncode_toNat (zigzagDecode u)
  rw [zigzagDecode_toInt, zigzag_unzigzag] at this
  exact_mod_cast this

/-! ### The four commands on an idle block -/

theorem exec_zigzagEncode32 {s : State} (h : s.block = .idle) (x : BitVec 32) :
    exec (.zigzagEncode32 x) s = .next (respondOk (toPort (zigzagEncode x)) 0 s) := whenIdle_idle h

theorem exec_zigzagDecode32 {s : State} (h : s.block = .idle) (u : BitVec 32) :
    exec (.zigzagDecode32 u) s = .next (respondOk (toPort (zigzagDecode u)) 0 s) := whenIdle_idle h

theorem exec_zigzagEncode64 {s : State} (h : s.block = .idle) (x : BitVec 64) :
    exec (.zigzagEncode64 x) s = .next (respondOk (toPort (zigzagEncode x)) 0 s) := whenIdle_idle h

theorem exec_zigzagDecode64 {s : State} (h : s.block = .idle) (u : BitVec 64) :
    exec (.zigzagDecode64 u) s = .next (respondOk (toPort (zigzagDecode u)) 0 s) := whenIdle_idle h

end Sys2Proof.Machine
end

