-- ==== Sys2Proof/Tests/Slice0.lean ====
section
/-! SUPPORT. Small tests, their expected results taken from the spec (95_test_vectors.md, 30_encoding.md), and for every
statement with hypotheses a witness that meets them. -/

namespace Sys2Proof.Tests

open Sys2Proof Sys2Proof.Machine

/-! ### Well-formedness: each check refuses an ill-formed term -/

theorem test_profiles_legal : Profile.pDoc.wellFormed ∧ Profile.pLiteral.wellFormed ∧ Profile.pFormula.wellFormed := by
  decide

theorem test_profile_mask_with_ten_bytes : Profile.wellFormed { maxB64 := 10, lastMask64 := 0xFF } = false := by decide

theorem test_profile_bound : Profile.wellFormed { maxB64 := 8, lastMask64 := 0x7F } = false := by decide

theorem test_profile_mask : Profile.wellFormed { maxB64 := 9, lastMask64 := 0x3F } = false := by decide

theorem test_line_decoder_with_operand :
    CommandLine.wellFormed { op := .varintDecodeUnsigned32, operand := some (.hex 0) } = false := by decide

theorem test_line_missing_operand : CommandLine.wellFormed { op := .zigzagEncode32, operand := none } = false := by decide

theorem test_line_hex_too_wide :
    CommandLine.wellFormed { op := .zigzagDecode32, operand := some (.hex 0x100000000) } = false := by decide

theorem test_line_negative_unsigned :
    CommandLine.wellFormed { op := .varintEncodeUnsigned32, operand := some (.dec (-1)) } = false := by decide

theorem test_line_below_signed_range :
    CommandLine.wellFormed { op := .zigzagEncode64, operand := some (.dec (-9223372036854775809)) } = false := by decide

/-- Every command is well formed (30_encoding.md R65). -/
theorem test_command_well_formed : Instr.wellFormed (.varintEncodeUnsigned64 0xFFFFFFFFFFFFFFFF) = true := by decide

/-! ### Decoding: words written out from 30_encoding.md R61, R62, as `op` and `a` -/

/-- 95_test_vectors.md 2.1: the operand's upper bits are ignored. -/
theorem test_decode_zigzagEncode32 : decode 0x0DEADBEEF00000001 = .zigzagEncode32 0x00000001 := by decide

theorem test_decode_zigzagDecode32 : decode 0x1000000000000007F = .zigzagDecode32 0x0000007F := by decide

theorem test_decode_zigzagEncode64 : decode 0x28000000000000000 = .zigzagEncode64 0x8000000000000000 := by decide

theorem test_decode_zigzagDecode64 : decode 0x3FFFFFFFFFFFFFFFF = .zigzagDecode64 0xFFFFFFFFFFFFFFFF := by decide

theorem test_decode_varintEncodeUnsigned32 : decode 0x4000000000000012C = .varintEncodeUnsigned32 300 := by decide

/-- 30_encoding.md R64: a decoder has no operand, whatever `a` holds. -/
theorem test_decode_varintDecodeUnsigned32 : decode 0x5FFFFFFFFFFFFFFFF = .varintDecodeUnsigned32 := by decide

theorem test_decode_varintEncodeUnsigned64 : decode 0x6FFFFFFFFFFFFFFFF = .varintEncodeUnsigned64 0xFFFFFFFFFFFFFFFF := by
  decide

theorem test_decode_varintDecodeUnsigned64 : decode 0x70000000000000000 = .varintDecodeUnsigned64 := by decide

/-- 30_encoding.md R60: no instruction is longer than 67 bits. -/
theorem test_decode_wider : decodeNat 0x80000000000000000 = .error .widerThanCommand := by decide

/-- 30_encoding.md R74: the assembler's word for `zigzag_encode_32 -1`. -/
theorem test_assemble : assemble { op := .zigzagEncode32, operand := some (.dec (-1)) } = some 0x000000000FFFFFFFF := by
  decide

/-! ### One step each, from 95_test_vectors.md part 2 and part 3 -/

/-- The state in which `w` is presented and `RX` is the list channel of `bs`. -/
def presented (w : Cmd) (bs : List Byte) : State :=
  { State.reset with rx := Source.ofBytes .endOfData bs, agenda := [.issue w] }

/-- What a host sees after one step: the responses, what `TX` holds, and the source. -/
def seen (s : State) : Option (List (Response Err) × List Byte × Source Err) :=
  match step s with
  | .next t => some (t.responses, t.tx.written, t.rx)
  | .fault _ => none
  | .refused _ => none

/-- 95_test_vectors.md 2.1: operand bits 63:32 are ignored. -/
theorem test_zigzagEncode32_upper :
    seen (presented 0x0DEADBEEF00000001 []) = some ([.ok 0x0000000000000002 0], [], Source.ofBytes .endOfData []) := by rfl

/-- 95_test_vectors.md 2.1: the minimum, no overflow. -/
theorem test_zigzagEncode32_min :
    seen (presented 0x00000000080000000 []) = some ([.ok 0x00000000FFFFFFFF 0], [], Source.ofBytes .endOfData []) := by rfl

/-- 95_test_vectors.md 2.1: the result is zero-extended. -/
theorem test_zigzagDecode32_zero_extended :
    seen (presented 0x10000000000000001 []) = some ([.ok 0x00000000FFFFFFFF 0], [], Source.ofBytes .endOfData []) := by rfl

/-- 95_test_vectors.md 2.1: the last row, backwards. -/
theorem test_zigzagDecode32_min :
    seen (presented 0x100000000FFFFFFFF []) = some ([.ok 0x0000000080000000 0], [], Source.ofBytes .endOfData []) := by rfl

/-- 95_test_vectors.md 2.2: the minimum, no overflow. -/
theorem test_zigzagEncode64_min :
    seen (presented 0x28000000000000000 []) = some ([.ok 0xFFFFFFFFFFFFFFFF 0], [], Source.ofBytes .endOfData []) := by rfl

/-- 95_test_vectors.md 2.2. -/
theorem test_zigzagEncode64_negative :
    seen (presented 0x2FFFFFFFF80000000 []) = some ([.ok 0x00000000FFFFFFFF 0], [], Source.ofBytes .endOfData []) := by rfl

/-- 95_test_vectors.md 2.2: the last row, backwards. -/
theorem test_zigzagDecode64_min :
    seen (presented 0x3FFFFFFFFFFFFFFFF []) = some ([.ok 0x8000000000000000 0], [], Source.ofBytes .endOfData []) := by rfl

/-- 95_test_vectors.md 2.2. -/
theorem test_zigzagDecode64_positive :
    seen (presented 0x32468ACF13579BDE0 []) = some ([.ok 0x123456789ABCDEF0 0], [], Source.ofBytes .endOfData []) := by rfl

/-- 95_test_vectors.md 2.3: the maximum, fifth byte 0F. -/
theorem test_varintEncodeUnsigned32_max :
    seen (presented 0x400000000FFFFFFFF []) = some ([.ok 0 5], [0xFF, 0xFF, 0xFF, 0xFF, 0x0F], Source.ofBytes .endOfData []) := by rfl

/-- 95_test_vectors.md program P5, command 0: a write that fails after one byte. -/
theorem test_varintEncodeUnsigned32_partial :
    seen { presented 0x4000000000000012C [] with tx := { Sink.ofBytes [] with answers := [.fail 1 (.other 1)] } } =
      some ([.fail (.other 1)], [0xAC], Source.ofBytes .endOfData []) := by rfl

/-- 95_test_vectors.md 2.4: the maximum is nine bytes, never ten. -/
theorem test_varintEncodeUnsigned64_max :
    seen (presented 0x6FFFFFFFFFFFFFFFF []) =
      some ([.ok 0 9], [0xFF, 0xFF, 0xFF, 0xFF, 0xFF, 0xFF, 0xFF, 0xFF, 0xFF], Source.ofBytes .endOfData []) := by rfl

/-- 95_test_vectors.md 2.4: the ninth byte is `x[63:56]`. -/
theorem test_varintEncodeUnsigned64_ninth :
    seen (presented 0x6123456789ABCDEF0 []) =
      some ([.ok 0 9], [0xF0, 0xBD, 0xF3, 0xD5, 0x89, 0xCF, 0x95, 0x9A, 0x12], Source.ofBytes .endOfData []) := by rfl

/-- 95_test_vectors.md 2.5: over-long, stops by the bound, `01` stays in `RX`. -/
theorem test_varintDecodeUnsigned32_overlong :
    seen (presented 0x50000000000000000 [0xFF, 0xFF, 0xFF, 0xFF, 0xFF, 0x01]) =
      some ([.ok 0x00000000FFFFFFFF 0], [], Source.ofBytes .endOfData [0x01]) := by rfl

/-- 95_test_vectors.md 2.5: a failure, the byte read is gone. -/
theorem test_varintDecodeUnsigned32_short :
    seen (presented 0x50000000000000000 [0x80]) = some ([.fail .endOfData], [], Source.ofBytes .endOfData []) := by rfl

/-- 95_test_vectors.md 2.5: the ninth byte is taken whole. -/
theorem test_varintDecodeUnsigned64_whole :
    seen (presented 0x70000000000000000 [0xFF, 0xFF, 0xFF, 0xFF, 0xFF, 0xFF, 0xFF, 0xFF, 0x80, 0x05]) =
      some ([.ok 0x80FFFFFFFFFFFFFF 0], [], Source.ofBytes .endOfData [0x05]) := by rfl

/-- 95_test_vectors.md 2.5: the bytes that give 0 at 32 bits. -/
theorem test_varintDecodeUnsigned64_beyond32 :
    seen (presented 0x70000000000000000 [0x80, 0x80, 0x80, 0x80, 0x10]) =
      some ([.ok 0x0000000100000000 0], [], Source.ofBytes .endOfData []) := by rfl

/-- The host's view: a presented command runs first (00_scope.md R15). -/
theorem test_withFetchWord :
    seen (State.reset.withFetchWord 67 0x28000000000000000) = some ([.ok 0xFFFFFFFFFFFFFFFF 0], [], Source.ofBytes .endOfData []) := by rfl

/-! ### Witnesses: for each statement with hypotheses, a state and operands that meet them together -/

/-- A source that gives these bytes and then never answers. -/
def silentAfter (bs : List Byte) : Source Err := { answers := bs.map .byte, after := none }

/-- A source that gives these bytes and then fails. -/
def failsAfter (bs : List Byte) (e : Err) : Source Err := { answers := bs.map .byte ++ [.fail e], after := none }

/-- The idle state with this source. -/
def withRx (rx : Source Err) : State := { State.reset with rx := rx }

/-- The idle state with this sink. -/
def withTx (tx : Sink Err) : State := { State.reset with tx := tx }

/-- A sink that takes `k` bytes of the next write and fails. -/
def failing (k : Nat) (e : Err) : Sink Err := { written := [0x55], answers := [.fail k e], after := none }

/-- A sink that never answers. -/
def silent : Sink Err := { written := [0x55], answers := [], after := none }

/-- An encoder waiting with the two bytes of 300. -/
def waitingEncoder : InFlight := .encode32 { v := 0, i := 1, buf := [0xAC, 0x02] }

/-- A 64-bit encoder waiting with the nine bytes of the maximum. -/
def waitingEncoder64 : InFlight := .encode64 { v := 1, i := 8, buf := List.replicate 9 0xFF }

/-- A decoder waiting after the byte 0xAC. -/
def waitingDecoder : InFlight := .decode32 { acc := 0x2C, i := 1, b := some 0xAC }

/-- A 64-bit decoder waiting for its ninth byte. -/
def waitingDecoder64 : InFlight := .decode64 { acc := 0x00FFFFFFFFFFFFFF, i := 8, b := some 0xFF }

/-- A busy state whose operation the channel does not answer, with these moves to come. -/
def busyWith (op : InFlight) (agenda : List (HostMove Err)) : State :=
  { block := .busy op, rx := silentAfter [], tx := silent, agenda := agenda, responses := [.ok 0 1] }

/-- A state in reset with these moves to come. -/
def inResetWith (agenda : List (HostMove Err)) : State := { State.reset with block := .inReset, agenda := agenda }

/-- An idle state with these moves to come. -/
def idleWith (agenda : List (HostMove Err)) : State := { State.reset with agenda := agenda }

theorem supplies_silent (bs : List Byte) : Supplies (silentAfter bs) bs (silentAfter []) := by
  simpa [silentAfter] using supplies_bytes bs [] none

theorem supplies_fails (bs : List Byte) (e : Err) : Supplies (failsAfter bs e) bs (failsAfter [] e) :=
  supplies_bytes bs [.fail e] none

theorem witness_CommandWordHasTwoFields : 2 < 3 ∧ 63 < 64 := by decide

theorem witness_EveryWordIsExactlyOneCommand :
    (0x00000000000000001 : Cmd) ≠ 0x0DEADBEEF00000001 ∧
      cmdOp 0x00000000000000001 = cmdOp 0x0DEADBEEF00000001 ∧
      cmdA 0x00000000000000001 &&& (decode 0x0DEADBEEF00000001).op.operandMask =
        cmdA 0x0DEADBEEF00000001 &&& (decode 0x0DEADBEEF00000001).op.operandMask := by decide

theorem witness_DecodeUndoesEncode : (Instr.zigzagEncode32 0x80000000).wellFormed = true := by decide

theorem witness_StepRunsThePresentedCommand :
    (idleWith [.issue 0x70000000000000000]).block = .idle ∧
      (idleWith [.issue 0x70000000000000000]).agenda = .issue 0x70000000000000000 :: [] := ⟨rfl, rfl⟩

theorem witness_ZigzagIsPureAndTotal : State.reset.block = .idle := rfl

/-- Idle, and an operand on each side of the case split. -/
theorem witness_ZigzagEncode32Meaning :
    State.reset.block = .idle ∧ ((0x7FFFFFFF : Port).extractLsb' 0 32).toInt = 2147483647 ∧
      ((0x80000000 : Port).extractLsb' 0 32).toInt = -2147483648 := by decide

theorem witness_ZigzagDecode32Meaning :
    State.reset.block = .idle ∧ ((0xFFFFFFFE : Port).extractLsb' 0 32).getLsbD 0 = false ∧
      ((0xFFFFFFFF : Port).extractLsb' 0 32).getLsbD 0 = true := by decide

theorem witness_ZigzagEncode64Meaning :
    State.reset.block = .idle ∧ (0x7FFFFFFFFFFFFFFF : Port).toInt = 9223372036854775807 ∧
      (0x8000000000000000 : Port).toInt = -9223372036854775808 := by decide

theorem witness_ZigzagDecode64Meaning :
    State.reset.block = .idle ∧ (0xFFFFFFFFFFFFFFFE : Port).getLsbD 0 = false ∧
      (0xFFFFFFFFFFFFFFFF : Port).getLsbD 0 = true := by decide

theorem witness_ZigzagDirectionsUndoEachOther : State.reset.block = .idle := rfl

theorem witness_ZigzagBitwiseFormsAgree : State.reset.block = .idle := rfl

theorem witness_ZigzagOrdersByMagnitude : State.reset.block = .idle ∧ 1 ≤ 1 ∧ 32 ≤ 32 ∧ 64 ≤ 64 := by decide

/-- The three answers of the sink, each at the longest operand. -/
theorem witness_VarintEncode32Meaning :
    (SinkGives State.reset.tx .accept (wireBytes 5 0xFFFFFFFF) (Sink.ofBytes (wireBytes 5 0xFFFFFFFF)) ∧
      State.reset.block = .idle) ∧
    (∃ tx, SinkGives (withTx (failing 5 .endOfData)).tx (.fail 5 .endOfData) ((wireBytes 5 0xFFFFFFFF).take 5) tx ∧
      (withTx (failing 5 .endOfData)).block = .idle) ∧
    (SinkSilent (withTx silent).tx ∧ (withTx silent).block = .idle) :=
  ⟨⟨.inr ⟨rfl, rfl, rfl⟩, rfl⟩, ⟨_, .inl ⟨_, rfl, rfl⟩, rfl⟩, ⟨⟨rfl, rfl⟩, rfl⟩⟩

theorem witness_VarintEncode64Meaning :
    (SinkGives State.reset.tx .accept (wireBytes 9 0xFFFFFFFFFFFFFFFF) (Sink.ofBytes (wireBytes 9 0xFFFFFFFFFFFFFFFF)) ∧
      State.reset.block = .idle) ∧
    (∃ tx, SinkGives (withTx (failing 0 .endOfData)).tx (.fail 0 .endOfData) ((wireBytes 9 0xFFFFFFFFFFFFFFFF).take 0) tx ∧
      (withTx (failing 0 .endOfData)).block = .idle) ∧
    (SinkSilent (withTx silent).tx ∧ (withTx silent).block = .idle) :=
  ⟨⟨.inr ⟨rfl, rfl, rfl⟩, rfl⟩, ⟨_, .inl ⟨_, rfl, rfl⟩, rfl⟩, ⟨⟨rfl, rfl⟩, rfl⟩⟩

/-- The hypotheses inside `Encodes32` and `Encodes64`, which the statements on lengths, zero, closed form and round trips
use. -/
theorem witness_Encodes : State.reset.block = .idle ∧
    SinkGives State.reset.tx .accept [0xAC, 0x02] (Sink.ofBytes [0xAC, 0x02]) := ⟨rfl, .inr ⟨rfl, rfl, rfl⟩⟩

/-- The hypotheses inside `Decodes32` and `Decodes64`. -/
theorem witness_Decodes : (withRx (silentAfter [0xAC, 0x02])).block = .idle ∧
    Supplies (withRx (silentAfter [0xAC, 0x02])).rx [0xAC, 0x02] (silentAfter []) := ⟨rfl, supplies_silent _⟩

theorem witness_EncoderClosedForm : (8 : Nat) < (wireBytes 9 0xFFFFFFFFFFFFFFFF).length ∧ (6 : Nat) < 7 := by decide

theorem witness_EncoderLength : 1 < (wireBytes 9 0x80).length ∧ (wireBytes 9 0x80).length < 9 := by decide

theorem witness_EncoderFailsExactlyWhenItsWriteFails :
    (∃ t, (withTx (failing 1 .endOfData)).block = .idle ∧
      exec (.varintEncodeUnsigned32 300) (withTx (failing 1 .endOfData)) = .next t ∧
      t.responses = (withTx (failing 1 .endOfData)).responses ++ [.fail .endOfData]) ∧
    (∃ t, (withTx (failing 1 .endOfData)).block = .idle ∧
      exec (.varintEncodeUnsigned64 300) (withTx (failing 1 .endOfData)) = .next t ∧
      t.responses = (withTx (failing 1 .endOfData)).responses ++ [.fail .endOfData]) :=
  ⟨⟨_, rfl, rfl, rfl⟩, ⟨_, rfl, rfl, rfl⟩⟩

/-- A value ended by a clear bit, one ended by the bound, a failed fifth read, a silent fifth read. -/
theorem witness_VarintDecode32Meaning :
    State.reset.block = .idle ∧ EndsValue 5 [] 0x7F ∧ EndsValue 5 [0x80, 0x80, 0x80, 0x80] 0xFF ∧
      Supplies (withRx (silentAfter [0x80, 0x80, 0x80, 0x80, 0xFF])).rx ([0x80, 0x80, 0x80, 0x80] ++ [0xFF]) (silentAfter []) ∧
      (∀ b ∈ [(0x80 : Byte), 0x80, 0x80, 0x80], b.getLsbD 7 = true) ∧
      (Supplies (failsAfter [0x80, 0x80, 0x80, 0x80] .endOfData) [0x80, 0x80, 0x80, 0x80] (failsAfter [] .endOfData) ∧
        SourceGives (failsAfter [] .endOfData) (.fail .endOfData) (silentAfter [])) ∧
      (Supplies (silentAfter [0x80, 0x80, 0x80, 0x80]) [0x80, 0x80, 0x80, 0x80] (silentAfter []) ∧
        SourceSilent (silentAfter [])) :=
  ⟨rfl, by unfold EndsValue; decide, by unfold EndsValue; decide, supplies_silent _, by decide,
    ⟨supplies_fails _ _, .inl ⟨_, rfl, rfl⟩⟩, ⟨supplies_silent _, ⟨rfl, rfl⟩⟩⟩

theorem witness_VarintDecode64Meaning :
    State.reset.block = .idle ∧ EndsValue 9 [] 0x7F ∧ EndsValue 9 (List.replicate 8 0x80) 0x80 ∧
      Supplies (withRx (silentAfter (List.replicate 8 0x80 ++ [0x80]))).rx (List.replicate 8 0x80 ++ [0x80]) (silentAfter []) ∧
      (∀ b ∈ List.replicate 8 (0x80 : Byte), b.getLsbD 7 = true) ∧
      (Supplies (failsAfter (List.replicate 8 0x80) .endOfData) (List.replicate 8 0x80) (failsAfter [] .endOfData) ∧
        SourceGives (failsAfter [] .endOfData) (.fail .endOfData) (silentAfter [])) ∧
      (Supplies (silentAfter (List.replicate 8 0x80)) (List.replicate 8 0x80) (silentAfter []) ∧
        SourceSilent (silentAfter [])) :=
  ⟨rfl, by unfold EndsValue; decide, by unfold EndsValue; decide, supplies_silent _, by decide,
    ⟨supplies_fails _ _, .inl ⟨_, rfl, rfl⟩⟩, ⟨supplies_silent _, ⟨rfl, rfl⟩⟩⟩

theorem witness_DecoderClosedForm :
    EndsValue 5 [0x80, 0x80, 0x80, 0x80] 0x1F ∧ EndsValue 9 (List.replicate 8 0x80) 0x80 ∧ 31 < 32 ∧ 62 < 63 :=
  ⟨by unfold EndsValue; decide, by unfold EndsValue; decide, by decide, by decide⟩

theorem witness_DecoderStopsAtTheEndOfOneValue :
    [(0xFF : Byte), 0xFF, 0x01, 0xFF, 0xFF].length = 5 ∧ (List.replicate 9 (0xFF : Byte)).length = 9 := ⟨rfl, rfl⟩

theorem witness_DecoderFailsExactlyWhenAReadFails :
    (∃ t, (withRx (failsAfter [0x80] .endOfData)).block = .idle ∧
      exec .varintDecodeUnsigned32 (withRx (failsAfter [0x80] .endOfData)) = .next t ∧
      t.responses = (withRx (failsAfter [0x80] .endOfData)).responses ++ [.fail .endOfData]) ∧
    (∃ t, (withRx (failsAfter [] .endOfData)).block = .idle ∧
      exec .varintDecodeUnsigned64 (withRx (failsAfter [] .endOfData)) = .next t ∧
      t.responses = (withRx (failsAfter [] .endOfData)).responses ++ [.fail .endOfData]) :=
  ⟨⟨_, rfl, rfl, rfl⟩, ⟨_, rfl, rfl, rfl⟩⟩

theorem witness_ValuesBackToBack : (withRx (silentAfter ([0x7F] ++ [0x80, 0x01]))).block = .idle ∧
    Supplies (withRx (silentAfter ([0x7F] ++ [0x80, 0x01]))).rx ([0x7F] ++ [0x80, 0x01]) (silentAfter []) :=
  ⟨rfl, supplies_silent _⟩

theorem witness_MixedWidths :
    (0xFFFFFFFF : BitVec 64).toNat < 2 ^ 32 ∧ 2 ^ 32 ≤ (0x100000000 : BitVec 64).toNat := by decide

/-- A decoder that waits for the last byte goes on at its own profile (00_scope.md R8): at P-FORMULA nine bytes FF and then 01
are 2^64 - 1 (41_varint_encode.md R103), and at P-LITERAL the ninth byte loses its bit 7. -/
theorem test_waiting_decoder_keeps_its_profile :
    (stepAt .pFormula { busyWith (.decode64 { acc := 0x7FFFFFFFFFFFFFFF, i := 9, b := some 0xFF }) [] with
      rx := silentAfter [0x01] } = .next { busyWith waitingDecoder64 [] with
        block := .idle, rx := silentAfter [], responses := [.ok 0 1, .ok 0xFFFFFFFFFFFFFFFF 0] }) ∧
    stepAt .pLiteral { busyWith waitingDecoder64 [] with rx := silentAfter [0xFF] } = .next { busyWith waitingDecoder64 [] with
      block := .idle, rx := silentAfter [], responses := [.ok 0 1, .ok 0x7FFFFFFFFFFFFFFF 0] } := ⟨rfl, rfl⟩

/-- Both sides of the split, and the hypotheses inside `EncodesAt`, `DecodesAt` and `DecodesLateAt`. -/
theorem witness_LiteralProfileLosesBit63 :
    (0x7FFFFFFFFFFFFFFF : BitVec 64).toNat < 2 ^ 63 ∧ 2 ^ 63 ≤ (0x8000000000000000 : BitVec 64).toNat ∧
      State.reset.block = .idle ∧ ([0x80, 0x01] : List Byte) = [0x80] ++ [0x01] ∧ ([0x01] : List Byte) ≠ [] := by decide

theorem witness_FormulaProfileTakesTenBytes :
    2 ^ 63 ≤ (0xFFFFFFFFFFFFFFFF : BitVec 64).toNat ∧ State.reset.block = .idle ∧
      (List.replicate 9 0xFF ++ [0x01] : List Byte) = List.replicate 9 0xFF ++ [0x01] ∧ ([0x01] : List Byte) ≠ [] := by decide

theorem witness_WriteVarI32Meaning : State.reset.block = .idle ∧
    (∃ tx, SinkGives State.reset.tx .accept [0x7F] tx) ∧
    ∃ tx, SinkGives (failing 0 .endOfData) (.fail 0 .endOfData) ([0x7F].take 0) tx :=
  ⟨rfl, ⟨_, .inr ⟨rfl, rfl, rfl⟩⟩, ⟨_, .inl ⟨_, rfl, rfl⟩⟩⟩

theorem witness_WriteVarI64Meaning : State.reset.block = .idle ∧
    (∃ tx, SinkGives State.reset.tx .accept (List.replicate 9 0xFF) tx) ∧
    ∃ tx, SinkGives (failing 9 .endOfData) (.fail 9 .endOfData) ((List.replicate 9 0xFF).take 9) tx :=
  ⟨rfl, ⟨_, .inr ⟨rfl, rfl, rfl⟩⟩, ⟨_, .inl ⟨_, rfl, rfl⟩⟩⟩

/-- A sequence that decodes, a source that supplies it, and a read that fails. -/
theorem witness_ReadVarI32Meaning :
    Decodes32 [0x7F] 0x7F ∧ Supplies (withRx (silentAfter [0x7F])).rx [0x7F] (silentAfter []) ∧
      (withRx (silentAfter [0x7F])).block = .idle ∧
      ∃ t, exec .varintDecodeUnsigned32 (withRx (failsAfter [] .endOfData)) = .next t ∧
        t.responses = (withRx (failsAfter [] .endOfData)).responses ++ [.fail .endOfData] := by
  refine ⟨fun s rx h hs => ?_, supplies_silent _, rfl, _, rfl, rfl⟩
  rw [exec_decode32 h, decRun_value (init := []) (b := 0x7F) hs (by simp) (by decide) (.inl rfl)]
  simp only [respondOk, respond, ← h]
  rfl

theorem witness_ReadVarI64Meaning :
    Decodes64 [0x7F] 0x7F ∧ Supplies (withRx (silentAfter [0x7F])).rx [0x7F] (silentAfter []) ∧
      (withRx (silentAfter [0x7F])).block = .idle ∧
      ∃ t, exec .varintDecodeUnsigned64 (withRx (failsAfter [0x80] .endOfData)) = .next t ∧
        t.responses = (withRx (failsAfter [0x80] .endOfData)).responses ++ [.fail .endOfData] := by
  refine ⟨fun s rx h hs => ?_, supplies_silent _, rfl, _, rfl, rfl⟩
  rw [exec_decode64 h, decRun_value (init := []) (b := 0x7F) hs (by simp) (by decide) (.inl rfl)]
  simp only [respondOk, respond, ← h]
  rfl

theorem witness_SignedRoundTrip : State.reset.block = .idle ∧ (∃ tx, SinkGives State.reset.tx .accept [0x7F] tx) ∧
    Supplies (withRx (silentAfter [0x7F])).rx [0x7F] (silentAfter []) :=
  ⟨rfl, ⟨_, .inr ⟨rfl, rfl, rfl⟩⟩, supplies_silent _⟩

theorem witness_SignedLength : State.reset.block = .idle ∧ (∃ tx, SinkGives State.reset.tx .accept [0x7F] tx) ∧
    (1 ≤ 1 ∧ 4 < 5) ∧ (1 ≤ 8 ∧ 8 < 9) :=
  ⟨rfl, ⟨_, .inr ⟨rfl, rfl, rfl⟩⟩, by decide, by decide⟩

/-- A decoder issued between the two steps of a pair answers, and the write that follows is accepted. -/
theorem witness_NothingBetweenTheStepsDisturbsAPair :
    (withRx (silentAfter [0x05])).block = .idle ∧ ∃ t u tx,
      exec (.zigzagEncode32 1) (withRx (silentAfter [0x05])) = .next t ∧
      exec .varintDecodeUnsigned32 t = .next u ∧ u.block = .idle ∧ SinkGives u.tx .accept [0x02] tx :=
  ⟨rfl, _, _, _, rfl, rfl, rfl, .inr ⟨rfl, rfl, rfl⟩⟩

/-- Two idle states that differ in what went before, with the same channel ahead. -/
theorem witness_NothingIsRememberedBetweenCommands :
    let s := { withTx silent with responses := [.ok 0 1] }
    let s' := { withTx { silent with written := [] } with agenda := [.loopback .endOfData] }
    s ≠ s' ∧ s.block = .idle ∧ s'.block = .idle ∧ s.rx = s'.rx ∧ s.tx.answers = s'.tx.answers ∧
      s.tx.after = s'.tx.after := by decide

/-- One operation of each of the three groups. -/
theorem witness_ChannelUseOfEachOperation : State.reset.block = .idle ∧
    (∃ t, exec (.zigzagDecode64 5) State.reset = .next t) ∧
    (∃ t, exec (.varintEncodeUnsigned64 5) State.reset = .next t) ∧
    (∃ t, exec .varintDecodeUnsigned32 (withRx (silentAfter [0x05])) = .next t ∧ t.block = .idle) :=
  ⟨rfl, ⟨_, rfl⟩, ⟨_, rfl⟩, ⟨_, rfl, rfl⟩⟩

theorem witness_FailureValuesAreTheChannels : ∃ t, State.reset.block = .idle ∧
    exec .varintDecodeUnsigned32 State.reset = .next t ∧ t.responses = State.reset.responses ++ [.fail .endOfData] :=
  ⟨_, rfl, rfl, rfl⟩

/-- An idle state over another type of failure values, whose sink will fail a write, with an encoder presented. -/
def overBool : State.At Bool :=
  { block := .idle, rx := Source.ofBytes true [], tx := { written := [], answers := [.fail 1 false], after := none },
    agenda := [.issue 0x4000000000000012C], responses := [] }

/-- The state after it: one byte written, the failure passed on. -/
def overBoolNext : State.At Bool :=
  { overBool with tx := { written := [0xAC], answers := [], after := none }, agenda := [], responses := [.fail false] }

/-- The hypotheses of the renamings and both sides of the equivalences. -/
theorem witness_FailureValuesPassUnchanged :
    execAt .pLiteral (.varintEncodeUnsigned32 300) { overBool with agenda := [] } = .next overBoolNext ∧
      stepAt .pLiteral overBool = .next overBoolNext ∧
      (∀ f : Bool → Err, execAt .pLiteral (.varintEncodeUnsigned32 300) (State.At.mapErr f { overBool with agenda := [] }) =
        .next (overBoolNext.mapErr f)) ∧
      ∀ f : Bool → Err, stepAt .pLiteral (overBool.mapErr f) = .next (overBoolNext.mapErr f) :=
  ⟨rfl, rfl, fun _ => rfl, fun _ => rfl⟩

theorem witness_AnOperationRespondsIffAnswered :
    (State.reset.block = .idle ∧ ∃ t, exec (.varintEncodeUnsigned32 300) State.reset = .next t) ∧
    (State.reset.rx.after ≠ none ∧ State.reset.tx.after ≠ none) ∧
    ((busyWith waitingDecoder []).block = .busy waitingDecoder ∧
      answered waitingDecoder (busyWith waitingDecoder []) = false ∧ (busyWith waitingDecoder []).agenda = []) ∧
    (let s := { busyWith waitingDecoder [] with rx := silentAfter [0x80] }
     s.block = .busy waitingDecoder ∧ answered waitingDecoder s = true) :=
  ⟨⟨rfl, _, rfl⟩, by decide, by decide, by decide⟩

/-- A waiting operation, and one whose access has been answered, each with a command presented. -/
theorem witness_CommandsAreHeldOffWhileBusy :
    let s := busyWith waitingEncoder [.issue 0x50000000000000000]
    let s' := { busyWith waitingEncoder [.issue 0x50000000000000000] with tx := Sink.ofBytes [] }
    s.block = .busy waitingEncoder ∧ s.agenda = .issue 0x50000000000000000 :: [] ∧ answered waitingEncoder s = false ∧
      s'.block = .busy waitingEncoder ∧ s'.agenda = .issue 0x50000000000000000 :: [] ∧ answered waitingEncoder s' = true := by
  decide

theorem witness_ExecHoldsOffOnABlockNotIdle :
    (busyWith waitingEncoder []).block ≠ .idle ∧ (inResetWith []).block ≠ .idle := by decide

/-- The host that waits for a late answer: the second byte of a read pair, `[80 01]` being 128 and so 64, and the sink's
answer in a write pair, -1 being the byte 0x01 (43_signed_composition.md R141, R143). -/
theorem test_pair_answered_late :
    readVarI32 { idleWith [.serveRx (.byte 0x80), .serveRx (.byte 0x01)] with rx := silentAfter [] } =
      .next { State.reset with rx := silentAfter [], responses := [.ok 128 0, .ok 64 0] } ∧
    writeVarI32 0xFFFFFFFF { idleWith [.serveTx .accept] with tx := silent } =
      .next { State.reset with tx := { silent with written := [0x55, 0x01] }, responses := [.ok 1 0, .ok 0 1] } :=
  ⟨rfl, rfl⟩

/-- A decoder that waits for its second byte and an encoder that waits for its write, each then answered; a read pair of either
width whose bytes are answered late, whose bytes never come, and which a reset abandons. -/
theorem witness_WaitingChangesNoResult :
    (∃ t op, State.reset.block = .idle ∧ (Instr.op .varintDecodeUnsigned32).direction = .decode ∧ [(.byte 0x02 : RxAnswer Err)] ≠ [] ∧
      exec .varintDecodeUnsigned32 { State.reset with rx := { answers := [.byte 0xAC], after := none } } = .next t ∧
      t.block = .busy op) ∧
    (∃ t op, State.reset.block = .idle ∧ (some .accept : Option (TxAnswer Err)) ≠ none ∧
      exec (.varintEncodeUnsigned64 300) { State.reset with tx := { written := [], answers := [], after := none } } = .next t ∧
      t.block = .busy op) ∧
    (∀ i ∈ [Instr.varintDecodeUnsigned32, .varintDecodeUnsigned64],
      (∃ u, exec i { State.reset with rx := { answers := [.byte 0x80] ++ [.byte 0x01], after := none } } = .next u ∧
        u.block = .idle ∧ u.rx.answers = []) ∧
      ∃ t op, exec i { idleWith [.assertReset 0, .releaseReset] with rx := silentAfter [0x80] } = .next t ∧ t.block = .busy op) :=
  ⟨⟨_, _, rfl, rfl, by decide, rfl, rfl⟩, ⟨_, _, rfl, by decide, rfl, rfl⟩,
    fun i hi => by simp at hi; rcases hi with rfl | rfl <;> exact ⟨⟨_, rfl, rfl, rfl⟩, _, _, rfl, rfl⟩⟩

theorem witness_ResetHoldsTheBlock :
    ((idleWith [.assertReset 0]).block = .idle ∧ (idleWith [.assertReset 0]).agenda = .assertReset 0 :: []) ∧
    ((inResetWith [.issue 0]).block = .inReset ∧ (inResetWith [.issue 0]).agenda = .issue 0 :: []) ∧
    (∃ t, (inResetWith [.loopback .endOfData]).block = .inReset ∧ step (inResetWith [.loopback .endOfData]) = .next t) ∧
    ((inResetWith [.releaseReset]).block = .inReset ∧ (inResetWith [.releaseReset]).agenda = .releaseReset :: []) ∧
    ((inResetWith [.assertReset 9]).block = .inReset ∧ (inResetWith [.assertReset 9]).agenda = .assertReset 9 :: []) ∧
    ((idleWith [.releaseReset]).block = .idle ∧ (idleWith [.releaseReset]).agenda = .releaseReset :: []) ∧
    ((busyWith waitingEncoder [.releaseReset]).block = .busy waitingEncoder ∧
      answered waitingEncoder (busyWith waitingEncoder [.releaseReset]) = false ∧
      (busyWith waitingEncoder [.releaseReset]).agenda = .releaseReset :: []) :=
  ⟨⟨rfl, rfl⟩, ⟨rfl, rfl⟩, ⟨_, rfl, rfl⟩, ⟨rfl, rfl⟩, ⟨rfl, rfl⟩, ⟨rfl, rfl⟩, ⟨rfl, rfl, rfl⟩⟩

/-- Each of the four operations that can wait, abandoned; the encoder after one byte of its write. -/
theorem witness_ResetAbandonsTheOperationInFlight :
    ∀ op ∈ [waitingEncoder, waitingEncoder64, waitingDecoder, waitingDecoder64],
      (busyWith op [.assertReset 1]).block = .busy op ∧ answered op (busyWith op [.assertReset 1]) = false ∧
      (busyWith op [.assertReset 1]).agenda = .assertReset 1 :: [] := by decide

/-- Each of the five moves, on an idle block, in reset, and while a decoder or an encoder waits; no move left; and an operation
whose access has been answered. -/
theorem witness_HostMovesOnTheChannel :
    (∀ m ∈ [HostMove.serveRx (.byte 0x02), .serveTx (.fail 0 .endOfData), .connectRx (silentAfter []), .connectTx silent,
        .loopback (.other 7)],
      (idleWith [m]).block = .idle ∧ (idleWith [m]).agenda = m :: [] ∧
      (inResetWith [m]).block = .inReset ∧ (inResetWith [m]).agenda = m :: [] ∧
      ∀ op ∈ [waitingDecoder, waitingEncoder64],
        (busyWith op [m]).block = .busy op ∧ answered op (busyWith op [m]) = false ∧ (busyWith op [m]).agenda = m :: []) ∧
    ((idleWith []).block = .idle ∧ (idleWith []).agenda = []) ∧
    (let s := { busyWith waitingDecoder [] with rx := silentAfter [0x02] }
     s.block = .busy waitingDecoder ∧ answered waitingDecoder s = true) := by decide

theorem witness_WrittenBytesAndResponsesOnlyGrow :
    (∃ t, step (idleWith [.issue 0x4000000000000012C]) = .next t) ∧
      ∀ tx rest, (idleWith [.issue 0x4000000000000012C]).agenda ≠ .connectTx tx :: rest :=
  ⟨⟨_, rfl⟩, by intro tx rest h; cases h⟩

/-- A state with a sound operation in flight, and its next one. -/
theorem witness_StepKeepsTheInvariant :
    (busyWith waitingDecoder [.serveRx (.byte 0x02)]).Inv ∧ ∃ t, step (busyWith waitingDecoder [.serveRx (.byte 0x02)]) = .next t := by
  refine ⟨⟨⟨by decide, by decide, by decide, by decide⟩, fun x hx => ?_⟩, _, rfl⟩
  cases List.mem_singleton.1 hx
  exact ⟨.inl rfl, by decide⟩

/-- Lines at the ends of the ranges, one ill-formed line, and a line without an operand. -/
theorem witness_AssembledLinesMeanWhatTheySay :
    CommandLine.wellFormed { op := .zigzagEncode32, operand := some (.dec (-2147483648)) } = true ∧
    CommandLine.wellFormed { op := .zigzagDecode64, operand := some (.hex 0xFFFFFFFFFFFFFFFF) } = true ∧
    CommandLine.wellFormed { op := .varintDecodeUnsigned64, operand := none } = true ∧
    CommandLine.wellFormed { op := .varintEncodeUnsigned64, operand := none } = false := by decide

end Sys2Proof.Tests
end

section
/-! PROOFS. What a command does is read off the channel's answers ahead of it, whatever went before (10_state.md R20). -/

namespace Sys2Proof.Machine

variable {ε : Type}

/-- The channels of two states will answer alike. -/
structure SameAhead (s s' : State.At ε) : Prop where
  rx : s.rx = s'.rx
  answers : s.tx.answers = s'.tx.answers
  after : s.tx.after = s'.tx.after

/-- What one command does to a state, with nothing of the state's past in it. -/
structure Effect (ε : Type) where
  /-- The block after the command. -/
  block : Block
  /-- The source that remains. -/
  rx : Source ε
  /-- The bytes appended to the sink. -/
  bytes : List Byte
  /-- The sink's answers that remain. -/
  answers : List (TxAnswer ε)
  /-- The responses given. -/
  responses : List (Response ε)

/-- The effect taken on a state. -/
def Effect.on (c : Effect ε) (s : State.At ε) : State.At ε :=
  { block := c.block
    rx := c.rx
    tx := { written := s.tx.written ++ c.bytes, answers := c.answers, after := s.tx.after }
    agenda := s.agenda
    responses := s.responses ++ c.responses }

/-- One and the same effect takes `s` to `t` and `s'` to `t'`. -/
def SameEffect (s t s' t' : State.At ε) : Prop := ∃ c : Effect ε, t = c.on s ∧ t' = c.on s'

variable {s s' : State.At ε}

/-- The source of the one state is already the other's. -/
theorem SameAhead.with_rx (h : SameAhead s s') : { s' with rx := s.rx } = s' := by rw [h.rx]

/-! ### The three ways a command leaves off -/

theorem respond_sameEffect (h : SameAhead s s') (x : Response ε) (rx : Source ε) :
    SameEffect s (respond x { s with rx := rx }) s' (respond x { s' with rx := rx }) :=
  ⟨⟨.idle, rx, [], s.tx.answers, [x]⟩, by simp [Effect.on, respond],
    by simp [Effect.on, respond, h.answers]⟩

theorem await_sameEffect (h : SameAhead s s') (op : InFlight) (rx : Source ε) :
    SameEffect s (await op { s with rx := rx }) s' (await op { s' with rx := rx }) :=
  ⟨⟨.busy op, rx, [], s.tx.answers, []⟩, by simp [Effect.on, await],
    by simp [Effect.on, await, h.answers]⟩

/-- After a write that a sink answered, a sink with the same answers ahead gives the same one, and the two responses have the
same effect. -/
theorem respond_write_sameEffect (h : SameAhead s s') {a : TxAnswer ε} {bs : List Byte} {tx : Sink ε}
    (hg : SinkGives s.tx a bs tx) (x : Response ε) :
    ∃ tx', SinkGives s'.tx a bs tx' ∧
      SameEffect s (respond x { s with tx := tx }) s' (respond x { s' with tx := tx' }) := by
  obtain ⟨as, ha, rfl⟩ | ⟨ha, hf, rfl⟩ := hg
  · exact ⟨_, .inl ⟨as, h.answers ▸ ha, rfl⟩, ⟨.idle, s.rx, bs, as, [x]⟩, rfl,
      by simp [Effect.on, respond, h.rx]⟩
  · exact ⟨_, .inr ⟨h.answers ▸ ha, h.after ▸ hf, rfl⟩, ⟨.idle, s.rx, bs, s.tx.answers, [x]⟩, rfl,
      by simp [Effect.on, respond, h.rx, h.answers]⟩

theorem SameAhead.sinkSilent (h : SameAhead s s') (hs : SinkSilent s.tx) : SinkSilent s'.tx :=
  ⟨h.answers ▸ hs.1, h.after ▸ hs.2⟩

/-! ### The three kinds of run -/

theorem respondOk_sameEffect (h : SameAhead s s') (r : Port) (n : Count) :
    SameEffect s (respondOk r n s) s' (respondOk r n s') := by
  have hsame := respond_sameEffect h (.ok r n) s.rx
  rw [h.with_rx] at hsame
  exact hsame

theorem decRun_sameEffect (h : SameAhead s s') {W : Nat} (pending : DecState W → InFlight) (bound : Nat) (last : Byte)
    (d : DecState W) : SameEffect s (decRun pending bound last d s) s' (decRun pending bound last d s') := by
  unfold decRun
  rw [h.rx]
  cases decLoop bound last (bound - d.i) d s'.rx with
  | value acc rx => exact respond_sameEffect h _ rx
  | failed e rx => exact respond_sameEffect h _ rx
  | waiting d' rx => exact await_sameEffect h _ rx

theorem encFinish_sameEffect (h : SameAhead s s') {W : Nat} (pending : EncState W → InFlight) (e : EncState W) :
    SameEffect s (encFinish pending e s) s' (encFinish pending e s') := by
  obtain ⟨tx, hg, hs⟩ | ⟨k, err, tx, hg, hs⟩ | ⟨hg, hs⟩ := encFinish_cases pending e s
  · obtain ⟨tx', hg', hsame⟩ := respond_write_sameEffect h hg (.ok 0 (toCount (e.i + 1)))
    rw [hs, encFinish_done hg']
    exact hsame
  · obtain ⟨tx', hg', hsame⟩ := respond_write_sameEffect h hg (.fail err)
    rw [hs, encFinish_failed hg']
    exact hsame
  · rw [hs, encFinish_silent (h.sinkSilent hg)]
    have hsame := await_sameEffect h (pending e) s.rx
    rw [h.with_rx] at hsame
    exact hsame

/-! ### Every command -/

/-- Two idle blocks accept a command, and its run has the same effect on both. -/
theorem whenIdle_sameEffect {i : Instr} {run : State.At ε → State.At ε} (hs : s.block = .idle) (hs' : s'.block = .idle)
    (h : SameEffect s (run s) s' (run s')) :
    ∃ c : Effect ε, whenIdle i run s = .next (c.on s) ∧ whenIdle i run s' = .next (c.on s') := by
  obtain ⟨c, hc, hc'⟩ := h
  exact ⟨c, by rw [whenIdle_idle hs, hc], by rw [whenIdle_idle hs', hc']⟩

/-- On idle states whose channels will answer alike, a command has one effect. -/
theorem exec_sameEffect (i : Instr) {s s' : State} (hs : s.block = .idle) (hs' : s'.block = .idle) (h : SameAhead s s') :
    ∃ c : Effect Err, exec i s = .next (c.on s) ∧ exec i s' = .next (c.on s') := by
  cases i with
  | zigzagEncode32 x => exact whenIdle_sameEffect hs hs' (respondOk_sameEffect h _ _)
  | zigzagDecode32 u => exact whenIdle_sameEffect hs hs' (respondOk_sameEffect h _ _)
  | zigzagEncode64 x => exact whenIdle_sameEffect hs hs' (respondOk_sameEffect h _ _)
  | zigzagDecode64 u => exact whenIdle_sameEffect hs hs' (respondOk_sameEffect h _ _)
  | varintEncodeUnsigned32 x => exact whenIdle_sameEffect hs hs' (encFinish_sameEffect h _ _)
  | varintDecodeUnsigned32 => exact whenIdle_sameEffect hs hs' (decRun_sameEffect h _ _ _ _)
  | varintEncodeUnsigned64 x => exact whenIdle_sameEffect hs hs' (encFinish_sameEffect h _ _)
  | varintDecodeUnsigned64 => exact whenIdle_sameEffect hs hs' (decRun_sameEffect h _ _ _ _)

/-- Settles O42: the one effect of the command on both states names the block, the source, the bytes, the answers and the
response that the two runs share. -/
theorem nothingIsRememberedBetweenCommands : Obligations.NothingIsRememberedBetweenCommands := by
  intro i s s' hs hs' hrx hanswers hafter
  obtain ⟨c, hc, hc'⟩ := exec_sameEffect i hs hs' ⟨hrx, hanswers, hafter⟩
  exact ⟨c.block, c.rx, c.bytes, c.answers, c.responses, hc, hc'⟩

end Sys2Proof.Machine
end

section
/-! PROOFS. The list channel: a list of bytes to read, and a list that takes what is written (20_memory.md R55). -/

namespace Sys2Proof.Machine

variable {ε : Type}

/-! ### The source -/

theorem ofBytes_cons_gives (e : ε) (b : Byte) (bs : List Byte) :
    SourceGives (Source.ofBytes e (b :: bs)) (.byte b) (Source.ofBytes e bs) :=
  .inl ⟨bs.map .byte, rfl, rfl⟩

theorem ofBytes_nil_gives (e : ε) : SourceGives (Source.ofBytes e []) (.fail e) (Source.ofBytes e []) :=
  .inr ⟨rfl, rfl, rfl⟩

/-! ### The sink -/

theorem ofBytes_accepts (w buf : List Byte) :
    SinkGives (Sink.ofBytes w : Sink ε) .accept buf (Sink.ofBytes (w ++ buf)) :=
  .inr ⟨rfl, rfl, rfl⟩

/-- A test says that the next write fails after `k` bytes; the writes after it are accepted again. -/
theorem ofBytes_failing_gives (w buf : List Byte) (k : Nat) (e : ε) :
    SinkGives { Sink.ofBytes w with answers := [.fail k e] } (.fail k e) (buf.take k) (Sink.ofBytes (w ++ buf.take k)) :=
  .inl ⟨[], rfl, rfl⟩

/-- Settles O53: each clause is the one answer that the list channel gives, read through the rule for that answer. -/
theorem listChannelAnswers : Obligations.ListChannelAnswers := by
  unfold Obligations.ListChannelAnswers
  refine ⟨fun b bs => ?head, ?empty, fun w buf => ?append, fun w buf k e => ?failAfter⟩
  case head => exact memRead_eq_byte_iff.2 (ofBytes_cons_gives _ b bs)
  case empty => exact memRead_eq_failed_iff.2 (ofBytes_nil_gives _)
  case append => exact memWrite_eq_done_iff.2 (ofBytes_accepts w buf)
  case failAfter => exact memWrite_eq_failed (ofBytes_failing_gives w buf k e)

end Sys2Proof.Machine
end

section
/-! PROOFS. The command word: a word is the code of one operation above an operand port, and everything the decoder answers
is read off these two (30_encoding.md part 1). -/

namespace Sys2Proof

/-! ### The fields -/

theorem getLsbD_cmdOp (w : Cmd) {i : Nat} (hi : i < 3) : (cmdOp w).getLsbD i = w.getLsbD (64 + i) := by
  simp [cmdOp, hi]

theorem getLsbD_cmdA (w : Cmd) {i : Nat} (hi : i < 64) : (cmdA w).getLsbD i = w.getLsbD i := by
  simp [cmdA, hi]

/-- Settles O1: the word is its two fields, and each field is a run of the word's bits. -/
theorem commandWordHasTwoFields : Obligations.CommandWordHasTwoFields :=
  fun w => ⟨fields_append w, fun _ => getLsbD_cmdOp w, fun _ => getLsbD_cmdA w⟩

/-! ### The command of an operation and an operand port -/

/-- The command of an operation whose operand port holds `a` (30_encoding.md R64). -/
def Op.command (op : Op) (a : Port) : Instr :=
  match op with
  | .zigzagEncode32 => .zigzagEncode32 (operand32 a)
  | .zigzagDecode32 => .zigzagDecode32 (operand32 a)
  | .zigzagEncode64 => .zigzagEncode64 a
  | .zigzagDecode64 => .zigzagDecode64 a
  | .varintEncodeUnsigned32 => .varintEncodeUnsigned32 (operand32 a)
  | .varintDecodeUnsigned32 => .varintDecodeUnsigned32
  | .varintEncodeUnsigned64 => .varintEncodeUnsigned64 a
  | .varintDecodeUnsigned64 => .varintDecodeUnsigned64

@[simp] theorem command_op (op : Op) (a : Port) : (op.command a).op = op := by cases op <;> rfl

@[simp] theorem decode_code_append (op : Op) (a : Port) : decode (op.code ++ a) = op.command a := by
  cases op <;> exact decode_append _ a

theorem code_surjective : Function.Surjective Op.code := by
  have code_decode : ∀ b : BitVec 3, (decode (b ++ (0 : Port))).op.code = b := by decide
  exact fun b => ⟨_, code_decode b⟩

theorem code_injective : Function.Injective Op.code := by
  intro op op' h
  have hdecode := congrArg (fun b => (decode (b ++ (0 : Port))).op) h
  simpa using hdecode

/-- Every word is the code of some operation above its operand port, since all eight codes are assigned. -/
theorem exists_code_append (w : Cmd) : ∃ op : Op, w = op.code ++ cmdA w := by
  obtain ⟨op, hop⟩ := code_surjective (cmdOp w)
  exact ⟨op, by rw [hop, fields_append]⟩

theorem cmdOp_eq_code_iff (w : Cmd) (op : Op) : cmdOp w = op.code ↔ (decode w).op = op := by
  obtain ⟨op', hw⟩ := exists_code_append w
  rw [hw, cmdOp_append, decode_code_append, command_op, code_injective.eq_iff]

theorem cmdOp_eq_code (w : Cmd) : cmdOp w = (decode w).op.code := (cmdOp_eq_code_iff w _).2 rfl

theorem decode_eq_command (w : Cmd) : decode w = (decode w).op.command (cmdA w) := by
  rw [← decode_code_append, ← cmdOp_eq_code, fields_append]

/-- Settles O4: the three bits of the decoded operation's code, which is the field `op`. -/
theorem opBitsAreLayerWidthDirection : Obligations.OpBitsAreLayerWidthDirection := by
  intro w
  rw [cmdOp_eq_code]
  cases (decode w).op <;> exact ⟨rfl, rfl, rfl⟩

/-! ### Match and mask -/

/-- The mask of every row keeps the field `op` alone. -/
theorem and_opMask (w : Cmd) : w &&& 0x70000000000000000 = cmdOp w ++ (0 : Port) := by
  calc w &&& 0x70000000000000000
      = (cmdOp w ++ cmdA w) &&& (BitVec.allOnes 3 ++ (0 : Port)) := by rw [fields_append]; rfl
    _ = (cmdOp w &&& BitVec.allOnes 3) ++ (cmdA w &&& 0#64) := BitVec.and_append
    _ = cmdOp w ++ (0 : Port) := by rw [BitVec.and_allOnes, BitVec.and_zero]; rfl

theorem and_opMask_eq_iff (w : Cmd) (op : Op) :
    w &&& 0x70000000000000000 = op.code ++ (0 : Port) ↔ (decode w).op = op := by
  rw [and_opMask, ← cmdOp_eq_code_iff]
  exact ⟨fun h => by simpa using congrArg cmdOp h, fun h => by rw [h]⟩

/-- Settles O3: each row's match is the code of its operation above zeros. -/
theorem matchAndMaskSelectTheOperation : Obligations.MatchAndMaskSelectTheOperation := fun w =>
  ⟨and_opMask_eq_iff w .zigzagEncode32, and_opMask_eq_iff w .zigzagDecode32, and_opMask_eq_iff w .zigzagEncode64,
    and_opMask_eq_iff w .zigzagDecode64, and_opMask_eq_iff w .varintEncodeUnsigned32,
    and_opMask_eq_iff w .varintDecodeUnsigned32, and_opMask_eq_iff w .varintEncodeUnsigned64,
    and_opMask_eq_iff w .varintDecodeUnsigned64⟩

/-! ### The rows of the table -/

/-- The row of an operation in the opcode table. -/
def Op.row (op : Op) : OpcodeRow := { op := op, value := op.code ++ (0 : Port), mask := 0x70000000000000000 }

theorem row_mem (op : Op) : op.row ∈ opcodeTable := by cases op <;> decide

theorem eq_row_of_mem : ∀ row ∈ opcodeTable, row = row.op.row := by decide

theorem row_covers_iff (op : Op) (w : Cmd) : op.row.covers w = true ↔ (decode w).op = op :=
  beq_iff_eq.trans (and_opMask_eq_iff w op)

theorem existsUnique_row_covers (w : Cmd) : ∃! row, row ∈ opcodeTable ∧ row.covers w = true := by
  refine ⟨(decode w).op.row, ⟨row_mem _, (row_covers_iff _ w).2 rfl⟩, fun row ⟨hmem, hcovers⟩ => ?_⟩
  have hrow := eq_row_of_mem row hmem
  rw [hrow] at hcovers
  rw [(row_covers_iff _ w).1 hcovers, ← hrow]

/-! ### The operand bits that take no part -/

theorem operand32_toNat (a : Port) : (operand32 a).toNat = a.toNat % 2 ^ 32 := by
  simp [operand32]

@[simp] theorem operand32_and_low (a : Port) : operand32 (a &&& 0x00000000FFFFFFFF) = operand32 a := by
  rw [← BitVec.toNat_inj, operand32_toNat, operand32_toNat, BitVec.toNat_and]
  exact (congrArg (· % 2 ^ 32) (Nat.and_two_pow_sub_one_eq_mod _ 32)).trans (Nat.mod_mod _ _)

theorem command_and_operandMask (op : Op) (a : Port) : op.command (a &&& op.operandMask) = op.command a := by
  have whole : a &&& 0xFFFFFFFFFFFFFFFF = a := BitVec.and_allOnes
  cases op <;> simp only [Op.command, Op.operandMask, operand32_and_low, whole]

theorem decodeNat_toNat (w : Cmd) : decodeNat w.toNat = .ok (decode w) := by
  rw [decodeNat, if_pos w.isLt, BitVec.ofNat_toNat, BitVec.setWidth_eq]

/-- Settles O5: a word is below 2^67, its operation names its one row, and its command is that of its operation with the
other operand bits cleared. -/
theorem everyWordIsExactlyOneCommand : Obligations.EveryWordIsExactlyOneCommand := by
  refine fun w => ⟨decodeNat_toNat w, existsUnique_row_covers w, fun w' hop ha => ?_⟩
  have hop' : (decode w').op = (decode w).op := by rw [← cmdOp_eq_code_iff, hop, cmdOp_eq_code]
  rw [decode_eq_command w', hop', ← command_and_operandMask, ha, command_and_operandMask, ← decode_eq_command]

end Sys2Proof
end

section
/-! PROOFS. The operand of each operation, and the integer a signed one stands for (30_encoding.md R64, 00_scope.md R11). -/

namespace Sys2Proof.Machine

theorem operand32_msb (a : Port) : (operand32 a).msb = a.getLsbD 31 := by
  simp [operand32, BitVec.msb_eq_getLsbD_last]

theorem operand32_toInt (a : Port) : (operand32 a).toInt =
    if a.getLsbD 31 then ((a.toNat % 2 ^ 32 : Nat) : Int) - 2 ^ 32 else ((a.toNat % 2 ^ 32 : Nat) : Int) := by
  rw [BitVec.toInt_eq_msb_cond, operand32_msb, operand32_toNat]
  rfl

theorem port_toInt (a : Port) : a.toInt = if a.getLsbD 63 then (a.toNat : Int) - 2 ^ 64 else (a.toNat : Int) := by
  rw [BitVec.toInt_eq_msb_cond, BitVec.msb_eq_getLsbD_last]
  rfl

/-- Settles O2: each word is the code of its operation above `a`, and a signed operand is read by its top bit. -/
theorem operandsAreAssembledFromA : Obligations.OperandsAreAssembledFromA := by
  intro a
  have encode32 := decode_code_append .zigzagEncode32 a
  have encode64 := decode_code_append .zigzagEncode64 a
  exact ⟨encode32, decode_code_append .zigzagDecode32 a, encode64, decode_code_append .zigzagDecode64 a,
    decode_code_append .varintEncodeUnsigned32 a, decode_code_append .varintDecodeUnsigned32 a,
    decode_code_append .varintEncodeUnsigned64 a, decode_code_append .varintDecodeUnsigned64 a,
    (congrArg operandValue encode32).trans (congrArg some (operand32_toInt a)),
    (congrArg operandValue encode64).trans (congrArg some (port_toInt a))⟩

end Sys2Proof.Machine
end

section
/-! PROOFS. The wires of the response port, and the names of the operations (30_encoding.md R66, R73). -/

namespace Sys2Proof.Machine

/-- Settles O56: each kind of response drives its own wires. -/
theorem responseWires : Obligations.ResponseWires :=
  fun _ _ _ => ⟨fun _ _ => ⟨_, rfl, rfl, rfl, rfl⟩, fun _ => ⟨_, rfl, rfl, rfl⟩⟩

theorem opOfName_mnemonic (op : Op) : opOfName (mnemonic op) = some op := by cases op <;> rfl

theorem opOfName_of_mem_aliases : ∀ x ∈ aliases, opOfName x.1 = some x.2 := by decide

/-- Settles O59: no two operations share a mnemonic, and no name of the document is one, so each name finds its own entry. -/
theorem mnemonicsAndAliases : Obligations.MnemonicsAndAliases :=
  ⟨opOfName_mnemonic .zigzagEncode32, opOfName_mnemonic .zigzagDecode32, opOfName_mnemonic .zigzagEncode64,
    opOfName_mnemonic .zigzagDecode64, opOfName_mnemonic .varintEncodeUnsigned32,
    opOfName_mnemonic .varintDecodeUnsigned32, opOfName_mnemonic .varintEncodeUnsigned64,
    opOfName_mnemonic .varintDecodeUnsigned64, opOfName_mnemonic,
    opOfName_of_mem_aliases ("write_var_u32", .varintEncodeUnsigned32) (by decide),
    opOfName_of_mem_aliases ("write_var_u64", .varintEncodeUnsigned64) (by decide),
    opOfName_of_mem_aliases ("read_var_u32", .varintDecodeUnsigned32) (by decide),
    opOfName_of_mem_aliases ("read_var_u64", .varintDecodeUnsigned64) (by decide)⟩

end Sys2Proof.Machine
end

section
/-! PROOFS. The frame of the zigzag commands: on an idle block each answers at once with its transform, and nothing but the
responses changes (40_zigzag.md R80). -/

namespace Sys2Proof.Machine

/-- A command that answers at once on an idle block changes nothing but the responses (40_zigzag.md R80). -/
theorem next_respondOk_idle {i : Instr} {s : State} {r : Port} (hs : s.block = .idle)
    (hexec : exec i s = .next (respondOk r 0 s)) :
    exec i s = .next { s with responses := s.responses ++ [.ok r 0] } :=
  hexec.trans (congrArg Host.Outcome.next (respond_idle hs))

theorem toPort_of_port (v : Port) : toPort v = v := BitVec.setWidth_eq v

variable {s : State} (hs : s.block = .idle)
include hs

theorem exec_zigzagEncode32_frame (x : BitVec 32) : exec (.zigzagEncode32 x) s =
    .next { s with responses := s.responses ++ [.ok ((zigzagEncode x).setWidth 64) 0] } :=
  next_respondOk_idle hs (exec_zigzagEncode32 hs x)

theorem exec_zigzagDecode32_frame (u : BitVec 32) : exec (.zigzagDecode32 u) s =
    .next { s with responses := s.responses ++ [.ok ((zigzagDecode u).setWidth 64) 0] } :=
  next_respondOk_idle hs (exec_zigzagDecode32 hs u)

theorem exec_zigzagEncode64_frame (x : BitVec 64) : exec (.zigzagEncode64 x) s =
    .next { s with responses := s.responses ++ [.ok (zigzagEncode x) 0] } := by
  have h := next_respondOk_idle hs (exec_zigzagEncode64 hs x)
  rwa [toPort_of_port] at h

theorem exec_zigzagDecode64_frame (u : BitVec 64) : exec (.zigzagDecode64 u) s =
    .next { s with responses := s.responses ++ [.ok (zigzagDecode u) 0] } := by
  have h := next_respondOk_idle hs (exec_zigzagDecode64 hs u)
  rwa [toPort_of_port] at h

end Sys2Proof.Machine
end

section
/-! PROOFS. The transform as a map of patterns, and the obligations on the four commands (40_zigzag.md R80 to R84). -/

namespace Sys2Proof.Machine

/-! ### The transform -/

theorem zigzagEncode_bijective {W : Nat} : Function.Bijective (zigzagEncode (W := W + 1)) :=
  Function.bijective_iff_has_inverse.2 ⟨zigzagDecode, zigzagDecode_encode, zigzagEncode_decode⟩

theorem zigzagDecode_bijective {W : Nat} : Function.Bijective (zigzagDecode (W := W + 1)) :=
  Function.bijective_iff_has_inverse.2 ⟨zigzagEncode, zigzagEncode_decode, zigzagDecode_encode⟩

theorem getLsbD_zero_eq_false_iff {W : Nat} (u : BitVec W) : u.getLsbD 0 = false ↔ u.toNat % 2 = 0 := by
  rw [BitVec.getLsbD, Nat.testBit_zero, decide_eq_false_iff_not, Nat.mod_two_not_eq_one]

/-- The document's decoder, its case read off bit 0 of the pattern (40_zigzag.md R82, R84). -/
theorem zigzagDecode_toInt_bit {W : Nat} (u : BitVec (W + 1)) : (zigzagDecode u).toInt =
    if u.getLsbD 0 = false then ((u.toNat / 2 : Nat) : Int) else -((u.toNat / 2 : Nat) : Int) - 1 := by
  simp only [zigzagDecode_toInt, unzigzag, getLsbD_zero_eq_false_iff]

/-! ### The obligations -/

/-- Settles O10: the bijection of each command is its transform, which the other direction undoes. -/
theorem zigzagIsPureAndTotal : Obligations.ZigzagIsPureAndTotal :=
  ⟨⟨zigzagEncode, zigzagEncode_bijective, fun x _ hs => exec_zigzagEncode32_frame hs x⟩,
    ⟨zigzagDecode, zigzagDecode_bijective, fun u _ hs => exec_zigzagDecode32_frame hs u⟩,
    ⟨zigzagEncode, zigzagEncode_bijective, fun x _ hs => exec_zigzagEncode64_frame hs x⟩,
    ⟨zigzagDecode, zigzagDecode_bijective, fun u _ hs => exec_zigzagDecode64_frame hs u⟩⟩

/-- Settles O11: the encoding stays below `2^32`, so its 32-bit pattern is the exact integer. -/
theorem zigzagEncode32Meaning : Obligations.ZigzagEncode32Meaning := fun a _ hs =>
  ⟨decode_code_append .zigzagEncode32 a, zigzagEncode (operand32 a), zigzagEncode_toNat (operand32 a),
    exec_zigzagEncode32_frame hs (operand32 a)⟩

/-- Settles O12: the decoded integer lies in the signed 32-bit range, so its pattern stands for it. -/
theorem zigzagDecode32Meaning : Obligations.ZigzagDecode32Meaning := fun a _ hs =>
  ⟨decode_code_append .zigzagDecode32 a, zigzagDecode (operand32 a), zigzagDecode_toInt_bit (operand32 a),
    exec_zigzagDecode32_frame hs (operand32 a)⟩

/-- Settles O13: the encoding stays below `2^64`, so its 64-bit pattern is the exact integer. -/
theorem zigzagEncode64Meaning : Obligations.ZigzagEncode64Meaning := fun a _ hs =>
  ⟨decode_code_append .zigzagEncode64 a, zigzagEncode a, zigzagEncode_toNat a, exec_zigzagEncode64_frame hs a⟩

/-- Settles O14: the decoded integer lies in the signed 64-bit range, so its pattern stands for it. -/
theorem zigzagDecode64Meaning : Obligations.ZigzagDecode64Meaning := fun a _ hs =>
  ⟨decode_code_append .zigzagDecode64 a, zigzagDecode a, zigzagDecode_toInt_bit a, exec_zigzagDecode64_frame hs a⟩

end Sys2Proof.Machine
end

section
/-! PROOFS. An encoder makes one write, and each answer of the sink decides what becomes of it (41_varint_encode.md R101,
R107, R108). Both encoders satisfy `OneWrite`, so what follows from the one write is proved once. -/

namespace Sys2Proof.Machine

/-- The command `i` writes the bytes `bs` and answers their count, on every idle block and accepting sink. `Encodes32` and
`Encodes64` are this at the two encoders. -/
def Writes (i : Instr) (bs : List Byte) : Prop :=
  ∀ (s : State) (tx : Sink Err), s.block = .idle → SinkGives s.tx .accept bs tx →
    exec i s = .next { s with tx := tx, responses := s.responses ++ [.ok 0 (BitVec.ofNat 4 bs.length)] }

/-- The command `i` hands the bytes `bs` to the sink in one write, and waits as `op` while the sink is silent. -/
structure OneWrite (i : Instr) (bs : List Byte) (op : InFlight) : Prop where
  accepted : Writes i bs
  failed : ∀ (s : State) (k : Nat) (e : Err) (tx : Sink Err), s.block = .idle →
    SinkGives s.tx (.fail k e) (bs.take k) tx → exec i s = .next { s with tx := tx, responses := s.responses ++ [.fail e] }
  silent : ∀ s : State, s.block = .idle → SinkSilent s.tx → exec i s = .next (await op s)

/-- A run that ends in `encFinish` is one write of the encoder's buffer, if the encoder counts its bytes. -/
theorem oneWrite_of_encFinish {W : Nat} {i : Instr} {pending : EncState W → InFlight} {e : EncState W} {bs : List Byte}
    (hexec : ∀ {s : State}, s.block = .idle → exec i s = .next (encFinish pending e s)) (hbuf : e.buf = bs)
    (hcount : toCount (e.i + 1) = BitVec.ofNat 4 bs.length) : OneWrite i bs (pending e) := by
  subst hbuf
  constructor
  case accepted =>
    intro s tx hs h
    rw [hexec hs, encFinish_done h, respondOk, respond_idle (s := { s with tx := tx }) hs, hcount]
  case failed =>
    intro s k err tx hs h
    rw [hexec hs, encFinish_failed h, raiseChannelFailure, respond_idle (s := { s with tx := tx }) hs]
  case silent =>
    intro s hs h
    rw [hexec hs, encFinish_silent h]

theorem encode32_oneWrite (x : BitVec 32) : OneWrite (.varintEncodeUnsigned32 x) (wireBytes 5 x.toNat)
    (.encode32 (encForm (maxB profile .w32) x)) :=
  oneWrite_of_encFinish exec_encode32 (encForm32_buf x) (encForm32_count x)

theorem encode64_oneWrite (x : BitVec 64) : OneWrite (.varintEncodeUnsigned64 x) (wireBytes 9 x.toNat)
    (.encode64 (encForm (maxB profile .w64) x)) :=
  oneWrite_of_encFinish exec_encode64 (encForm64_buf x) (encForm64_count x)

/-! ### The bytes are unique -/

/-- From reset the sink accepts and shows what was written, so a command writes no two byte sequences. -/
theorem Writes.unique {i : Instr} {bs cs : List Byte} (hb : Writes i bs) (hc : Writes i cs) : cs = bs := by
  have accepts (ds : List Byte) : SinkGives State.reset.tx .accept ds (Sink.ofBytes ds) := .inr ⟨rfl, rfl, rfl⟩
  have hnext := (hc _ _ reset_block (accepts cs)).symm.trans (hb _ _ reset_block (accepts bs))
  injection hnext with hstate
  exact congrArg (fun s : State => s.tx.written) hstate

theorem encodes32_iff {x : BitVec 32} {bs : List Byte} : Encodes32 x bs ↔ bs = wireBytes 5 x.toNat :=
  ⟨(encode32_oneWrite x).accepted.unique, fun h => h ▸ (encode32_oneWrite x).accepted⟩

theorem encodes64_iff {x : BitVec 64} {bs : List Byte} : Encodes64 x bs ↔ bs = wireBytes 9 x.toNat :=
  ⟨(encode64_oneWrite x).accepted.unique, fun h => h ▸ (encode64_oneWrite x).accepted⟩

/-! ### The failure of the one write -/

theorem SinkGives.written_eq {ε : Type} {tx tx' : Sink ε} {a : TxAnswer ε} {bs : List Byte} (h : SinkGives tx a bs tx') :
    tx'.written = tx.written ++ bs := by
  obtain ⟨_, _, rfl⟩ | ⟨_, _, rfl⟩ := h <;> rfl

section
variable {i : Instr} {bs : List Byte} {op : InFlight} {s t : State} {e : Err}

/-- A failed answer determines the whole next state. -/
theorem OneWrite.next_of_fail (h : OneWrite i bs op) (hs : s.block = .idle) (hexec : exec i s = .next t) {k : Nat}
    {tx : Sink Err} (hg : SinkGives s.tx (.fail k e) (bs.take k) tx) :
    t = { s with tx := tx, responses := s.responses ++ [.fail e] } := by
  rw [h.failed s k e tx hs hg] at hexec
  injection hexec with ht
  exact ht.symm

/-- Of the sink's three answers only a failure with `e` adds the response `Fail(e)`. -/
theorem OneWrite.exists_fail (h : OneWrite i bs op) (hs : s.block = .idle) (hexec : exec i s = .next t)
    (hr : t.responses = s.responses ++ [.fail e]) : ∃ k, SinkGives s.tx (.fail k e) (bs.take k) t.tx := by
  obtain ⟨a, tx, hg⟩ | hsilent := sink_gives_or_silent bs s.tx
  · cases a with
    | accept =>
      rw [h.accepted s tx hs hg] at hexec
      cases hexec
      simp at hr
    | fail k e' =>
      obtain rfl := h.next_of_fail hs hexec hg
      obtain rfl : e' = e := by simpa using hr
      exact ⟨k, hg⟩
  · rw [h.silent s hs hsilent] at hexec
    cases hexec
    simp at hr

/-- 41_varint_encode.md R107 for any command that makes one write. -/
theorem OneWrite.fails_iff (h : OneWrite i bs op) (hs : s.block = .idle) (hexec : exec i s = .next t) :
    t.responses = s.responses ++ [.fail e] ↔
      ∃ cs k, Writes i cs ∧ SinkGives s.tx (.fail k e) (cs.take k) t.tx := by
  constructor
  · intro hr
    obtain ⟨k, hg⟩ := h.exists_fail hs hexec hr
    exact ⟨bs, k, h.accepted, hg⟩
  · rintro ⟨cs, k, hw, hg⟩
    obtain rfl := h.accepted.unique hw
    exact congrArg State.At.responses (h.next_of_fail hs hexec hg)

/-- What a failure leaves: the state but for `TX` and the responses, and in `TX` the first of the bytes. -/
theorem OneWrite.fail_leaves_first_bytes (h : OneWrite i bs op) (hs : s.block = .idle) (hexec : exec i s = .next t)
    (hr : t.responses = s.responses ++ [.fail e]) : t = { s with tx := t.tx, responses := t.responses } ∧
      ∃ cs k, Writes i cs ∧ k ≤ cs.length ∧ t.tx.written = s.tx.written ++ cs.take k := by
  obtain ⟨k, hg⟩ := h.exists_fail hs hexec hr
  refine ⟨hr ▸ h.next_of_fail hs hexec hg, bs, min k bs.length, h.accepted, Nat.min_le_right _ _, ?_⟩
  rw [← List.take_eq_take_min]
  exact hg.written_eq

end

end Sys2Proof.Machine
end

section
/-! PROOFS. How many bytes a value takes, and its fifth byte (30_encoding.md part 2, 41_varint_encode.md R102, R105). -/

namespace Sys2Proof.Machine

/-- Short of the bound, the bytes' groups hold the whole value. -/
theorem lt_of_wireBytes_length_lt {bound v : Nat} (h : (wireBytes (bound + 1) v).length < bound + 1) :
    v < 2 ^ (7 * (wireBytes (bound + 1) v).length) := by
  obtain ⟨init, last, hbytes, ⟨-, -, hlast⟩, hcont, -⟩ := wireBytes_ends bound v
  simp only [hbytes, List.length_append, List.length_singleton] at h ⊢
  obtain hclear | hfull := hlast
  · rw [pow_mul, ← not_le]
    exact fun hle => by simp [hcont.2 hle] at hclear
  · omega

/-- A byte beyond the first is written only for what the earlier groups cannot hold. -/
theorem le_of_one_lt_wireBytes_length {bound v : Nat} (h : 1 < (wireBytes (bound + 1) v).length) :
    2 ^ (7 * ((wireBytes (bound + 1) v).length - 1)) ≤ v := by
  obtain ⟨init, last, hbytes, -, -, hmore⟩ := wireBytes_ends bound v
  simp only [hbytes, List.length_append, List.length_singleton, Nat.add_sub_cancel] at h ⊢
  rw [pow_mul]
  exact hmore (by omega)

theorem lt_of_wireBytes32 (x : BitVec 32) : x.toNat < 2 ^ (7 * (wireBytes 5 x.toNat).length) := by
  obtain hshort | hfull := (wireBytes_length_le 4 x.toNat).lt_or_eq
  · exact lt_of_wireBytes_length_lt hshort
  · rw [hfull]
    exact x.isLt.trans (by decide)

/-- The last byte allowed holds what the earlier groups leave, and is absent where they leave nothing. -/
theorem wireBytes_getD_last (bound v : Nat) : v < 128 ^ (bound + 1) →
    ((wireBytes (bound + 1) v).getD bound 0).toNat = v / 128 ^ bound := by
  refine wireBytes_induction (motive := fun b v => v < 128 ^ b →
    ((wireBytes b v).getD (b - 1) 0).toNat = v / 128 ^ (b - 1)) ?last ?full ?more bound v
  case last =>
    intro b v h hv
    rw [wireBytes_last h, Nat.add_sub_cancel]
    cases b with
    | zero => simp only [List.getD_cons_zero, toNat_ofNat_mod, pow_zero, Nat.div_one]; omega
    | succ b => rw [pow_succ', ← Nat.div_div_eq_div_mul, h, Nat.zero_div]; rfl
  case full => intro v h hv; omega
  case more =>
    intro b v h ih hv
    have hrest : v / 128 < 128 ^ (b + 1) := by rw [pow_succ] at hv; omega
    rw [wireBytes_more h, show b + 2 - 1 = b + 1 from rfl, List.getD_cons_succ, pow_succ', ← Nat.div_div_eq_div_mul]
    exact ih hrest

theorem fifthByte32_le (x : BitVec 32) : ((wireBytes 5 x.toNat).getD 4 0).toNat ≤ 0x0F := by
  have := x.isLt
  rw [wireBytes_getD_last 4 x.toNat (by omega)]
  omega

end Sys2Proof.Machine
end

section
/-! PROOFS. The obligations on the two encoders (41_varint_encode.md R102, R103, R105 to R107). -/

namespace Sys2Proof.Machine

/-- Settles O18: the bytes formed are handed over in one write, and a 32-bit value leaves at most four bits for a fifth. -/
theorem varintEncode32Meaning : Obligations.VarintEncode32Meaning := fun a s hs =>
  have run := encode32_oneWrite (operand32 a)
  ⟨decode_code_append .varintEncodeUnsigned32 a, wireBytes_length_pos 4 _, wireBytes_length_le 4 _,
    fifthByte32_le (operand32 a), fun tx => run.accepted s tx hs, fun k e tx => run.failed s k e tx hs,
    fun hsilent => ⟨_, s.tx, encForm32_buf (operand32 a), run.silent s hs hsilent⟩⟩

/-- Settles O19: the bytes formed are handed over in one write. -/
theorem varintEncode64Meaning : Obligations.VarintEncode64Meaning := fun a s hs =>
  have run := encode64_oneWrite a
  ⟨decode_code_append .varintEncodeUnsigned64 a, wireBytes_length_pos 8 _, wireBytes_length_le 8 _,
    fun tx => run.accepted s tx hs, fun k e tx => run.failed s k e tx hs,
    fun hsilent => ⟨_, s.tx, encForm64_buf a, run.silent s hs hsilent⟩⟩

/-- Settles O21: the bytes are `wireBytes`, whose length the value fixes, and which evaluate at the checkpoints. -/
theorem encoderLength : Obligations.EncoderLength := by
  refine ⟨fun x => ?length32, fun x => ?length64, ?checkpoints⟩
  case length32 =>
    exact ⟨_, encodes32_iff.2 rfl, wireBytes_length_pos 4 _, wireBytes_length_le 4 _, lt_of_wireBytes32 x,
      le_of_one_lt_wireBytes_length⟩
  case length64 =>
    exact ⟨_, encodes64_iff.2 rfl, wireBytes_length_pos 8 _, wireBytes_length_le 8 _, lt_of_wireBytes_length_lt,
      le_of_one_lt_wireBytes_length⟩
  case checkpoints =>
    simp only [encodes32_iff, encodes64_iff]
    decide

/-- Settles O22: the value 0 is its own last byte, and every value has a last byte. -/
theorem zeroIsOneByteAndNoneIsEmpty : Obligations.ZeroIsOneByteAndNoneIsEmpty :=
  ⟨encodes32_iff.2 (by decide), encodes64_iff.2 (by decide),
    fun x => ⟨_, encodes32_iff.2 rfl, List.ne_nil_of_length_pos (wireBytes_length_pos 4 x.toNat)⟩,
    fun x => ⟨_, encodes64_iff.2 rfl, List.ne_nil_of_length_pos (wireBytes_length_pos 8 x.toNat)⟩⟩

/-- Settles O23: each encoder makes one write, and only a failure of it answers `Fail`. -/
theorem encoderFailsExactlyWhenItsWriteFails : Obligations.EncoderFailsExactlyWhenItsWriteFails :=
  ⟨fun x _ _ _ hs hexec =>
      have run := encode32_oneWrite x
      ⟨run.fails_iff hs hexec, run.fail_leaves_first_bytes hs hexec⟩,
    fun x _ _ _ hs hexec =>
      have run := encode64_oneWrite x
      ⟨run.fails_iff hs hexec, run.fail_leaves_first_bytes hs hexec⟩⟩

end Sys2Proof.Machine
end

section
/-! PROOFS. A decoder runs its loop on what the source answers (42_varint_decode.md R121, R125, R126). Both decoders satisfy
`RunsLoop`, so what follows from the loop is proved once. -/

namespace Sys2Proof.Machine

/-- The command `i` takes the bytes `bs`, and no other, and answers `r`, on every idle block whose source supplies them.
`Decodes32` and `Decodes64` are this at the two decoders. -/
def Reads (i : Instr) (bs : List Byte) (r : Port) : Prop :=
  ∀ (s : State) (rx : Source Err), s.block = .idle → Supplies s.rx bs rx →
    exec i s = .next { s with rx := rx, responses := s.responses ++ [.ok r 0] }

/-- On an idle block the command `i` is the decoder's loop from its start, bounded at `bound` bytes, with the mask `last` for
the last of them; it waits as `pending` says. -/
def RunsLoop {W : Nat} (i : Instr) (pending : DecState W → InFlight) (bound : Nat) (last : Byte) : Prop :=
  ∀ s : State, s.block = .idle → exec i s = .next (decRun pending bound last (DecState.start W) s)

theorem decode32_runsLoop : RunsLoop .varintDecodeUnsigned32 .decode32 5 0x7F := fun _ => exec_decode32

theorem decode64_runsLoop : RunsLoop .varintDecodeUnsigned64 .decode64 9 0xFF := fun _ => exec_decode64

@[simp] theorem start_i (W : Nat) : (DecState.start W).i = 0 := rfl

/-! ### What a waiting decoder holds -/

theorem DecState.after_b {W : Nat} (bound : Nat) (last : Byte) (d : DecState W) (bs : List Byte) :
    (d.after bound last bs).b = bs.getLast?.or d.b := by
  induction bs generalizing d with
  | nil => rfl
  | cons b bs ih => simp [DecState.after, ih, decTake, List.getLast?_cons]

/-- Below the bound nothing of the groups is lost, if the width holds all of them but the last. -/
theorem after_acc_eq_groups {W bound : Nat} {last : Byte} {init : List Byte} (hl : init.length < bound)
    (hw : 7 * (bound - 1) ≤ W) : ((DecState.start W).after bound last init).acc.toNat = groups init := by
  have hlt : groups init < 2 ^ W :=
    calc groups init < 128 ^ init.length := groups_lt init
      _ = 2 ^ (7 * init.length) := (pow_mul 2 7 _).symm
      _ ≤ 2 ^ W := Nat.pow_le_pow_right (by decide) (by omega)
  rw [DecState.after_acc (start_lt W) (by simp only [start_i]; omega), start_i,
    maskedGroups_short (by omega)]
  simp [DecState.start, Nat.mod_eq_of_lt hlt]

/-! ### The three ways the loop ends -/

section
variable {W bound : Nat} {i : Instr} {pending : DecState W → InFlight} {last : Byte} {s t : State} {init : List Byte}
  {mid rx : Source Err} {e : Err}

/-- The bytes of one value are taken, and the accumulator they leave is the answer. -/
theorem RunsLoop.reads (h : RunsLoop i pending bound last) {b : Byte} (hends : EndsValue bound init b) :
    Reads i (init ++ [b]) (toPort ((DecState.start W).after bound last (init ++ [b])).acc) := by
  intro s rx hs hsup
  obtain ⟨hl, hmore, hlast⟩ := hends
  rw [h s hs, decRun_value hsup hmore (by rwa [start_i, Nat.zero_add]) (by rwa [start_i, Nat.zero_add]), respondOk,
    respond_idle (s := { s with rx := rx }) hs]

theorem RunsLoop.failed (h : RunsLoop i pending bound last) (hs : s.block = .idle) (hl : init.length < bound)
    (hmore : ∀ b ∈ init, continues b = true) (hsup : Supplies s.rx init mid)
    (hg : SourceGives mid (.fail e) rx) : exec i s = .next { s with rx := rx, responses := s.responses ++ [.fail e] } := by
  rw [h s hs, decRun_failed hsup hmore (by rwa [start_i, Nat.zero_add]) hg, raiseChannelFailure,
    respond_idle (s := { s with rx := rx }) hs]

theorem RunsLoop.waits (h : RunsLoop i pending bound last) (hw : 7 * (bound - 1) ≤ W) (hs : s.block = .idle)
    (hl : init.length < bound) (hmore : ∀ b ∈ init, continues b = true) (hsup : Supplies s.rx init mid)
    (hsilent : SourceSilent mid) :
    ∃ d, d.i = init.length ∧ d.acc.toNat = groups init ∧ d.b = init.getLast? ∧
      exec i s = .next { s with rx := mid, block := .busy (pending d) } := by
  refine ⟨(DecState.start W).after bound last init, ?_, after_acc_eq_groups hl hw, ?_, ?_⟩
  · rw [DecState.after_i, start_i, Nat.zero_add]
  · rw [DecState.after_b]
    exact Option.or_none
  · rw [h s hs, decRun_waiting hsup hmore (by rwa [start_i, Nat.zero_add]) hsilent, await]

/-! ### Failure -/

/-- Of the three ways the loop ends only a read that failed with `e` adds the response `Fail(e)`. -/
theorem RunsLoop.exists_failed_read (h : RunsLoop i pending bound last) (hpos : 0 < bound) (hs : s.block = .idle)
    (hexec : exec i s = .next t) (hr : t.responses = s.responses ++ [.fail e]) :
    ∃ init mid, init.length < bound ∧ (∀ b ∈ init, continues b = true) ∧ Supplies s.rx init mid ∧
      SourceGives mid (.fail e) t.rx := by
  rw [h s hs] at hexec
  injection hexec with ht
  obtain ⟨_, _, _, -, -, hrun⟩ | ⟨init, e', mid, rx, hsup, hl, hmore, hg, hrun⟩ | ⟨_, _, -, -, -, -, hrun⟩ :=
    decRun_cases pending last (d := DecState.start W) s hpos
  · simp [← ht, hrun] at hr
  · obtain rfl : e' = e := by simpa [← ht, hrun] using hr
    have hrx : t.rx = rx := by rw [← ht, hrun, raiseChannelFailure_rx]
    exact ⟨init, mid, by rwa [start_i, Nat.zero_add] at hl, hmore, hsup, hrx ▸ hg⟩
  · simp [← ht, hrun] at hr

/-- A failed read determines the whole next state. -/
theorem RunsLoop.next_of_failed_read (h : RunsLoop i pending bound last) (hs : s.block = .idle) (hexec : exec i s = .next t)
    (hl : init.length < bound) (hmore : ∀ b ∈ init, continues b = true)
    (hsup : Supplies s.rx init mid) (hg : SourceGives mid (.fail e) rx) :
    t = { s with rx := rx, responses := s.responses ++ [.fail e] } := by
  rw [h.failed hs hl hmore hsup hg] at hexec
  injection hexec with ht
  exact ht.symm

/-- 42_varint_decode.md R126 for any command that runs the loop. -/
theorem RunsLoop.fails_iff (h : RunsLoop i pending bound last) (hpos : 0 < bound) (hs : s.block = .idle)
    (hexec : exec i s = .next t) : t.responses = s.responses ++ [.fail e] ↔
      ∃ init mid, init.length < bound ∧ (∀ b ∈ init, continues b = true) ∧ Supplies s.rx init mid ∧
        SourceGives mid (.fail e) t.rx := by
  refine ⟨h.exists_failed_read hpos hs hexec, ?_⟩
  rintro ⟨init, mid, hl, hmore, hsup, hg⟩
  exact congrArg State.At.responses (h.next_of_failed_read hs hexec hl hmore hsup hg)

/-- A failure changes nothing but the source and the responses. -/
theorem RunsLoop.fail_frame (h : RunsLoop i pending bound last) (hpos : 0 < bound) (hs : s.block = .idle)
    (hexec : exec i s = .next t) (hr : t.responses = s.responses ++ [.fail e]) :
    t = { s with rx := t.rx, responses := t.responses } := by
  obtain ⟨init, mid, hl, hmore, hsup, hg⟩ := h.exists_failed_read hpos hs hexec hr
  exact hr ▸ h.next_of_failed_read hs hexec hl hmore hsup hg

end

/-! ### The value at each width -/

theorem decodes32_of_ends {init : List Byte} {b : Byte} (hends : EndsValue 5 init b) :
    Decodes32 (init ++ [b]) (BitVec.ofNat 32 (groups (init ++ [b]))) := by
  have hl : (init ++ [b]).length ≤ 5 := by
    rw [List.length_append]
    exact hends.1
  have hreads := decode32_runsLoop.reads hends
  rwa [after32_acc hl] at hreads

theorem decodes64_of_ends {init : List Byte} {b : Byte} (hends : EndsValue 9 init b) :
    Decodes64 (init ++ [b]) (BitVec.ofNat 64 (value64 init b)) := by
  have hreads := decode64_runsLoop.reads hends
  rwa [after64_acc hends.1, toPort_of_port] at hreads

/-! ### Any bytes begin with a value -/

/-- A byte that says more follow goes before a value, and makes its bound one more. -/
theorem EndsValue.cons {bound : Nat} {init : List Byte} {b last : Byte} (h : EndsValue bound init last)
    (hb : continues b = true) : EndsValue (bound + 1) (b :: init) last := by
  obtain ⟨hl, hmore, hlast⟩ := h
  exact ⟨Nat.succ_lt_succ hl, List.forall_mem_cons.2 ⟨hb, hmore⟩, hlast.imp_right (congrArg (· + 1))⟩

/-- As many bytes as the bound begin with one value: the first clear continuation bit ends it, or the bound does. -/
theorem exists_first_value (bound : Nat) (bs : List Byte) (hl : bs.length = bound + 1) :
    ∃ init last rest, bs = init ++ last :: rest ∧ EndsValue (bound + 1) init last := by
  induction bound generalizing bs with
  | zero =>
    obtain ⟨b, rfl⟩ := List.length_eq_one_iff.1 hl
    exact ⟨[], b, [], rfl, by simp [EndsValue]⟩
  | succ n ih =>
    obtain ⟨b, tail, rfl⟩ := List.exists_cons_of_length_eq_add_one hl
    cases hb : continues b with
    | false => exact ⟨[], b, tail, rfl, by simp [EndsValue, hb]⟩
    | true =>
      obtain ⟨init, last, rest, rfl, hends⟩ := ih tail (Nat.succ.inj hl)
      exact ⟨b :: init, last, rest, rfl, hends.cons hb⟩

end Sys2Proof.Machine
end

section
/-! PROOFS. A decoder reads back what the encoder of its width wrote (41_varint_encode.md section 3), and two decoders one
after the other read what two encoders wrote (42_varint_decode.md R129). -/

namespace Sys2Proof.Machine

theorem decodes32_wireBytes (x : BitVec 32) : Decodes32 (wireBytes 5 x.toNat) x := by
  obtain ⟨init, last, hbytes, hends, -⟩ := wireBytes_ends 4 x.toNat
  have hgroups : groups (wireBytes 5 x.toNat) = x.toNat :=
    (groups_wireBytes 4 x.toNat).trans (Nat.mod_eq_of_lt (x.isLt.trans (by decide)))
  have hdec := decodes32_of_ends hends
  rwa [← hbytes, hgroups, BitVec.ofNat_toNat, BitVec.setWidth_eq] at hdec

/-- Nine groups of seven bits hold all but bit 63, and that bit is the ninth byte's own bit 7. -/
theorem wireBytes_value64 {v : Nat} (hv : v < 2 ^ 64) :
    ∃ init last, wireBytes 9 v = init ++ [last] ∧ EndsValue 9 init last ∧ value64 init last = v := by
  obtain ⟨init, last, hbytes, hends, hcont, -⟩ := wireBytes_ends 8 v
  refine ⟨init, last, hbytes, hends, ?_⟩
  have hgroups : groups (init ++ [last]) = v % 128 ^ 9 := hbytes ▸ groups_wireBytes 8 v
  unfold value64
  split
  case isTrue hnine =>
    rw [groups_append, hnine] at hgroups
    rw [continues_iff, hnine] at hcont
    simp only [groups] at hgroups
    have := last.isLt
    omega
  case isFalse hshort =>
    have hlen : (wireBytes 9 v).length ≤ 8 := by
      have := hends.1
      rw [hbytes, List.length_append, List.length_singleton]
      omega
    have hlt : v < 128 ^ 9 :=
      calc v < 2 ^ (7 * (wireBytes 9 v).length) := lt_of_wireBytes_length_lt (Nat.lt_succ_of_le hlen)
        _ ≤ 2 ^ (7 * 8) := Nat.pow_le_pow_right (by decide) (by omega)
        _ ≤ 128 ^ 9 := by decide
    rw [hgroups, Nat.mod_eq_of_lt hlt]

theorem decodes64_wireBytes (x : BitVec 64) : Decodes64 (wireBytes 9 x.toNat) x := by
  obtain ⟨init, last, hbytes, hends, hvalue⟩ := wireBytes_value64 x.isLt
  have hdec := decodes64_of_ends hends
  rwa [← hbytes, hvalue, BitVec.ofNat_toNat, BitVec.setWidth_eq] at hdec

/-- A decoder takes no byte but its own, so that the next one finds the rest. -/
theorem Reads.then {i j : Instr} {bs cs : List Byte} {r q : Port} (hi : Reads i bs r) (hj : Reads j cs q) {s : State}
    {rx : Source Err} (hs : s.block = .idle) (hsup : Supplies s.rx (bs ++ cs) rx) :
    ∃ t, exec i s = .next t ∧ exec j t = .next { s with rx := rx, responses := s.responses ++ [.ok r 0, .ok q 0] } := by
  obtain ⟨mid, hbs, hcs⟩ := supplies_append.1 hsup
  have hnext := hj { s with rx := mid, responses := s.responses ++ [.ok r 0] } rx hs hcs
  exact ⟨_, hi s mid hs hbs, by simpa using hnext⟩

/-- Settles O31: each decoder reads back its encoder's bytes and leaves the rest to the next. -/
theorem valuesBackToBack : Obligations.ValuesBackToBack :=
  ⟨fun x y => ⟨_, _, encodes32_iff.2 rfl, encodes32_iff.2 rfl,
      fun _ _ => Reads.then (decodes32_wireBytes x) (decodes32_wireBytes y)⟩,
    fun x y => ⟨_, _, encodes32_iff.2 rfl, encodes64_iff.2 rfl,
      fun _ _ => Reads.then (decodes32_wireBytes x) (decodes64_wireBytes y)⟩,
    fun x y => ⟨_, _, encodes64_iff.2 rfl, encodes32_iff.2 rfl,
      fun _ _ => Reads.then (decodes64_wireBytes x) (decodes32_wireBytes y)⟩,
    fun x y => ⟨_, _, encodes64_iff.2 rfl, encodes64_iff.2 rfl,
      fun _ _ => Reads.then (decodes64_wireBytes x) (decodes64_wireBytes y)⟩⟩

end Sys2Proof.Machine
end

section
/-! PROOFS. The obligations on the two decoders (42_varint_decode.md R122, R123, R125, R126). -/

namespace Sys2Proof.Machine

/-- Settles O24: the loop ends with a value, a failed read, or a read that is not answered. -/
theorem varintDecode32Meaning : Obligations.VarintDecode32Meaning := fun a s hs =>
  ⟨decode_code_append .varintDecodeUnsigned32 a, fun _ _ rx hends => decodes32_of_ends hends s rx hs,
    fun _ _ _ _ => decode32_runsLoop.failed hs, fun _ _ => decode32_runsLoop.waits (by decide) hs⟩

/-- Settles O25: the loop ends with a value, a failed read, or a read that is not answered. -/
theorem varintDecode64Meaning : Obligations.VarintDecode64Meaning := fun a s hs =>
  ⟨decode_code_append .varintDecodeUnsigned64 a, fun _ _ rx hends => decodes64_of_ends hends s rx hs,
    fun _ _ _ _ => decode64_runsLoop.failed hs, fun _ _ => decode64_runsLoop.waits (by decide) hs⟩

/-- Settles O27: the bytes begin with one value, and a decoder takes the bytes of one value and no other. -/
theorem decoderStopsAtTheEndOfOneValue : Obligations.DecoderStopsAtTheEndOfOneValue := by
  refine ⟨fun bs hl => ?width32, fun bs hl => ?width64⟩
  case width32 =>
    obtain ⟨init, last, rest, hbs, hends⟩ := exists_first_value 4 bs hl
    exact ⟨init, last, rest, _, hbs, hends, decodes32_of_ends hends⟩
  case width64 =>
    obtain ⟨init, last, rest, hbs, hends⟩ := exists_first_value 8 bs hl
    exact ⟨init, last, rest, _, hbs, hends, decodes64_of_ends hends⟩

/-- Settles O28: of the three ways a decoder's loop ends, only a failed read answers `Fail`. -/
theorem decoderFailsExactlyWhenAReadFails : Obligations.DecoderFailsExactlyWhenAReadFails :=
  ⟨fun _ _ _ hs hexec =>
      ⟨decode32_runsLoop.fails_iff (by decide) hs hexec, decode32_runsLoop.fail_frame (by decide) hs hexec⟩,
    fun _ _ _ hs hexec =>
      ⟨decode64_runsLoop.fails_iff (by decide) hs hexec, decode64_runsLoop.fail_frame (by decide) hs hexec⟩⟩

end Sys2Proof.Machine
end

section
/-! PROOFS. What a pair of commands does on an idle block, by what its first command answers (43_signed_composition.md R141 to
R144): on an `Ok` the second command is issued with the result, on a `Fail` it is not issued. -/

namespace Sys2Proof.Machine

/-- A host that waits for a response already given goes on at once. -/
theorem issueAndWait_idle {i : Instr} {s t : State} (hexec : exec i s = .next t) (ht : t.block = .idle) :
    issueAndWait profile i s = .next t := by
  rw [issueAndWait, execAt_profile, hexec, onNext_next, hostWait_idle profile ht]

section
variable {first : Instr} {second : Port → Instr} {s : State} (hs : s.block = .idle)
include hs

theorem pair_of_ok {t u : State} {r : Port} {n : Count} (hfirst : exec first s = .next t) (ht : t.block = .idle)
    (hr : t.responses = s.responses ++ [.ok r n]) (hsecond : exec (second r) t = .next u) (hu : u.block = .idle) :
    pair profile first second s = .next u := by
  have hanswer : t.responses[s.responses.length]? = some (.ok r n) := hr ▸ List.getElem?_concat_length
  rw [pair_idle profile hs (issueAndWait_idle hfirst ht), hanswer]
  exact issueAndWait_idle hsecond hu

theorem pair_of_fail {t : State} {e : Err} (hfirst : exec first s = .next t) (ht : t.block = .idle)
    (hr : t.responses = s.responses ++ [.fail e]) : pair profile first second s = .next t := by
  have hanswer : t.responses[s.responses.length]? = some (.fail e) := hr ▸ List.getElem?_concat_length
  rw [pair_idle profile hs (issueAndWait_idle hfirst ht), hanswer]

/-! ### A write pair: the first command is pure, the second makes one write -/

section
variable {r : Port} {bs : List Byte} {op : InFlight} {tx : Sink Err}
  (hfirst : exec first s = .next { s with responses := s.responses ++ [.ok r 0] }) (hwrite : OneWrite (second r) bs op)
include hfirst hwrite

theorem pair_of_accepted_write (hg : SinkGives s.tx .accept bs tx) : pair profile first second s =
    .next { s with tx := tx, responses := s.responses ++ [.ok r 0, .ok 0 (BitVec.ofNat 4 bs.length)] } := by
  rw [List.append_cons]
  exact pair_of_ok hs hfirst hs rfl (hwrite.accepted _ tx hs hg) hs

theorem pair_of_failed_write {k : Nat} {e : Err} (hg : SinkGives s.tx (.fail k e) (bs.take k) tx) :
    pair profile first second s = .next { s with tx := tx, responses := s.responses ++ [.ok r 0, .fail e] } := by
  rw [List.append_cons]
  exact pair_of_ok hs hfirst hs rfl (hwrite.failed _ k e tx hs hg) hs

end

/-! ### A read pair: the first command is a decoder, the second is pure -/

theorem pair_of_read {r q : Port} {bs : List Byte} {rx : Source Err} (hread : Reads first bs r)
    (hsecond : ∀ {t : State}, t.block = .idle →
      exec (second r) t = .next { t with responses := t.responses ++ [.ok q 0] })
    (hsup : Supplies s.rx bs rx) : pair profile first second s =
      .next { s with rx := rx, responses := s.responses ++ [.ok r 0, .ok q 0] } := by
  rw [List.append_cons]
  exact pair_of_ok hs (hread s rx hs hsup) hs rfl (hsecond hs) hs

/-- A decoder's failure is the pair's answer (43_signed_composition.md R143, R144). -/
theorem RunsLoop.pair_of_failed_read {W bound : Nat} {pending : DecState W → InFlight} {last : Byte}
    (hloop : RunsLoop first pending bound last) (hpos : 0 < bound) {t : State} {e : Err} (hexec : exec first s = .next t)
    (hr : t.responses = s.responses ++ [.fail e]) : pair profile first second s = .next t := by
  have ht : t.block = .idle := (congrArg State.At.block (hloop.fail_frame hpos hs hexec hr)).trans hs
  exact pair_of_fail hs hexec ht hr

end

end Sys2Proof.Machine
end

section
/-! PROOFS. The obligations on the four signed pseudo-operations (43_signed_composition.md R141 to R144). -/

namespace Sys2Proof.Machine

/-! ### A 32-bit result reaches the second command whole, below zeros -/

theorem encode32_carried_oneWrite (u : BitVec 32) : OneWrite (.varintEncodeUnsigned32 (operand32 (u.setWidth 64)))
    (wireBytes 5 u.toNat) (.encode32 (encForm (maxB profile .w32) u)) := by
  rw [operand32_setWidth]
  exact encode32_oneWrite u

theorem exec_zigzagDecode32_carried (u : BitVec 32) {s : State} (hs : s.block = .idle) :
    exec (.zigzagDecode32 (operand32 (u.setWidth 64))) s =
      .next { s with responses := s.responses ++ [.ok ((zigzagDecode u).setWidth 64) 0] } := by
  rw [operand32_setWidth]
  exact exec_zigzagDecode32_frame hs u

/-! ### The obligations -/

/-- Settles O35: the zigzag command answers at once, and the encoder hands over its result's bytes in one write. -/
theorem writeVarI32Meaning : Obligations.WriteVarI32Meaning := fun x _ hs =>
  have hfirst := exec_zigzagEncode32_frame hs x
  have hwrite := encode32_carried_oneWrite (zigzagEncode x)
  ⟨zigzagEncode x, _, zigzagEncode_toNat x, encodes32_iff.2 rfl, wireBytes_length_pos 4 _, wireBytes_length_le 4 _,
    fun _ => pair_of_accepted_write hs hfirst hwrite, fun _ _ _ => pair_of_failed_write hs hfirst hwrite⟩

/-- Settles O36: the zigzag command answers at once, and the encoder hands over its result's bytes in one write. -/
theorem writeVarI64Meaning : Obligations.WriteVarI64Meaning := fun x _ hs =>
  have hfirst := exec_zigzagEncode64_frame hs x
  have hwrite := encode64_oneWrite (zigzagEncode x)
  ⟨zigzagEncode x, _, zigzagEncode_toNat x, encodes64_iff.2 rfl, wireBytes_length_pos 8 _, wireBytes_length_le 8 _,
    fun _ => pair_of_accepted_write hs hfirst hwrite, fun _ _ _ => pair_of_failed_write hs hfirst hwrite⟩

/-- Settles O37: what the decoder answers is the operand of the zigzag command, and its failure ends the pair. -/
theorem readVarI32Meaning : Obligations.ReadVarI32Meaning := fun _ hs =>
  ⟨fun _ u _ hread hsup => ⟨zigzagDecode u, zigzagDecode_toInt_bit u,
      pair_of_read hs hread (exec_zigzagDecode32_carried u) hsup⟩,
    fun _ _ => decode32_runsLoop.pair_of_failed_read hs (by decide)⟩

/-- Settles O38: what the decoder answers is the operand of the zigzag command, and its failure ends the pair. -/
theorem readVarI64Meaning : Obligations.ReadVarI64Meaning := fun _ hs =>
  ⟨fun _ u _ hread hsup => ⟨zigzagDecode u, zigzagDecode_toInt_bit u,
      pair_of_read hs hread (exec_zigzagDecode64_frame · u) hsup⟩,
    fun _ _ => decode64_runsLoop.pair_of_failed_read hs (by decide)⟩

end Sys2Proof.Machine
end

section
/-! PROOFS. The decoder and the encoder of the command word undo each other, up to the operand bits that take no part
(30_encoding.md part 1). -/

namespace Sys2Proof

theorem command_a (i : Instr) : i.op.command i.a = i := by
  cases i <;> simp only [Instr.op, Instr.a, Op.command, operand32_setWidth]

@[simp] theorem decode_encode (i : Instr) : decode (encode i) = i := by
  rw [encode, decode_code_append, command_a]

/-- Settles O6: the word of a command is its code above its operand port, which the decoder reads back. -/
theorem decodeUndoesEncode : Obligations.DecodeUndoesEncode := fun i _ => decode_encode i

theorem operand32_setWidth_port (a : Port) : (operand32 a).setWidth 64 = a &&& 0x00000000FFFFFFFF := by
  rw [← BitVec.toNat_inj, BitVec.toNat_setWidth, operand32_toNat, BitVec.toNat_and]
  exact (Nat.mod_eq_of_lt (by omega)).trans (Nat.and_two_pow_sub_one_eq_mod a.toNat 32).symm

/-- The operand port of a command keeps the bits that take part, and zeros elsewhere. -/
theorem a_command (op : Op) (a : Port) : (op.command a).a = a &&& op.operandMask := by
  have whole : a &&& 0xFFFFFFFFFFFFFFFF = a := BitVec.and_allOnes
  have none : a &&& 0 = 0 := BitVec.and_zero
  cases op <;> simp only [Op.command, Instr.a, Op.operandMask, operand32_setWidth_port, whole, none]

/-- Settles O7: the decoded word is the command of its operation and its operand port, whose word has the same code. -/
theorem encodeUndoesDecodeUpToIgnoredBits : Obligations.EncodeUndoesDecodeUpToIgnoredBits := by
  intro w
  rw [cmdOp_eq_code, ← a_command, ← decode_eq_command, encode]

/-- Settles O8: the nine words evaluate. -/
theorem specWordsDecode : Obligations.SpecWordsDecode := by
  unfold Obligations.SpecWordsDecode
  decide

end Sys2Proof
end

section
/-! PROOFS. The laws of the zigzag family: the two directions, the bitwise forms, and the order by magnitude
(40_zigzag.md section 3). -/

namespace Sys2Proof.Machine

/-! ### The second command on the result of the first -/

section
variable {s : State} (hs : s.block = .idle)
include hs

theorem exec_zigzagDecode32_encoded (x : BitVec 32) : exec (.zigzagDecode32 (operand32 ((zigzagEncode x).setWidth 64))) s =
    .next { s with responses := s.responses ++ [.ok (x.setWidth 64) 0] } := by
  have h := exec_zigzagDecode32_frame hs (zigzagEncode x)
  rwa [zigzagDecode_encode, ← operand32_setWidth (zigzagEncode x)] at h

theorem exec_zigzagEncode32_decoded (u : BitVec 32) : exec (.zigzagEncode32 (operand32 ((zigzagDecode u).setWidth 64))) s =
    .next { s with responses := s.responses ++ [.ok (u.setWidth 64) 0] } := by
  have h := exec_zigzagEncode32_frame hs (zigzagDecode u)
  rwa [zigzagEncode_decode, ← operand32_setWidth (zigzagDecode u)] at h

theorem exec_zigzagDecode64_encoded (x : BitVec 64) : exec (.zigzagDecode64 (zigzagEncode x)) s =
    .next { s with responses := s.responses ++ [.ok x 0] } := by
  have h := exec_zigzagDecode64_frame hs (zigzagEncode x)
  rwa [zigzagDecode_encode] at h

theorem exec_zigzagEncode64_decoded (u : BitVec 64) : exec (.zigzagEncode64 (zigzagDecode u)) s =
    .next { s with responses := s.responses ++ [.ok u 0] } := by
  have h := exec_zigzagEncode64_frame hs (zigzagDecode u)
  rwa [zigzagEncode_decode] at h

end

/-- A command issued on the state that a pure command left adds its answer to that command's. -/
theorem next_of_two_pure {i j : Instr} {r q : Port} {s : State} (hs : s.block = .idle)
    (hi : exec i s = .next { s with responses := s.responses ++ [.ok r 0] })
    (hj : ∀ {t : State}, t.block = .idle → exec j t = .next { t with responses := t.responses ++ [.ok q 0] }) :
    ∃ t, exec i s = .next t ∧ t.responses = s.responses ++ [.ok r 0] ∧
      exec j t = .next { s with responses := s.responses ++ [.ok r 0, .ok q 0] } := by
  refine ⟨_, hi, rfl, ?_⟩
  rw [List.append_cons s.responses (.ok r 0) [.ok q 0]]
  exact hj hs

/-- Settles O15: at each width each transform is the inverse of the other, and the response carries all of its result. -/
theorem zigzagDirectionsUndoEachOther : Obligations.ZigzagDirectionsUndoEachOther :=
  ⟨fun x _ hs => ⟨_, next_of_two_pure hs (exec_zigzagEncode32_frame hs x) (exec_zigzagDecode32_encoded · x)⟩,
    fun u _ hs => ⟨_, next_of_two_pure hs (exec_zigzagDecode32_frame hs u) (exec_zigzagEncode32_decoded · u)⟩,
    fun x _ hs => ⟨_, next_of_two_pure hs (exec_zigzagEncode64_frame hs x) (exec_zigzagDecode64_encoded · x)⟩,
    fun u _ hs => ⟨_, next_of_two_pure hs (exec_zigzagDecode64_frame hs u) (exec_zigzagEncode64_decoded · u)⟩⟩

/-! ### The bitwise forms -/

/-- The sign bit, copied into every bit. -/
theorem sshiftRight_width {W : Nat} (x : BitVec (W + 1)) :
    x.sshiftRight W = if x.msb then BitVec.allOnes (W + 1) else 0 := by
  have hbit : ∀ i (hi : i < W + 1), (x.sshiftRight W)[i] = x.msb := by
    intro i hi
    rw [BitVec.getElem_sshiftRight]
    split
    · rw [BitVec.msb_eq_getLsbD_last, ← BitVec.getLsbD_eq_getElem, show W + i = W + 1 - 1 by omega]
    · rfl
  ext i hi
  rw [hbit]
  cases x.msb <;> simp

/-- Bit 0, copied into every bit. -/
theorem signExtend_lowBit {W : Nat} (u : BitVec (W + 1)) :
    (u.extractLsb' 0 1).signExtend (W + 1) = if u.getLsbD 0 then BitVec.allOnes (W + 1) else 0 := by
  have hbit : ∀ i (hi : i < W + 1), ((u.extractLsb' 0 1).signExtend (W + 1))[i] = u.getLsbD 0 := by
    intro i hi
    rw [BitVec.getElem_signExtend]
    split
    · rw [BitVec.getElem_extractLsb', show 0 + i = 0 by omega]
    · rw [BitVec.msb_eq_getLsbD_last, BitVec.getLsbD_extractLsb']
      rfl
  ext i hi
  rw [hbit]
  cases u.getLsbD 0 <;> simp

/-- 40_zigzag.md R87, the encoding: twice the integer, complemented if it is negative. -/
theorem zigzagEncode_eq_bits {W : Nat} (x : BitVec (W + 1)) : zigzagEncode x = zigzagEncodeBits x := by
  have hx := x.isLt
  have hz := zigzagEncode_toNat x
  rw [BitVec.toInt_eq_msb_cond, BitVec.msb_eq_decide, Nat.add_sub_cancel] at hz
  rw [zigzagEncodeBits, Nat.add_sub_cancel, sshiftRight_width, BitVec.msb_eq_decide, Nat.add_sub_cancel, ← BitVec.toNat_inj]
  rw [pow_succ] at hx hz
  by_cases hneg : 2 ^ W ≤ x.toNat
  case pos =>
    have hdouble : x.toNat * 2 % 2 ^ (W + 1) = x.toNat * 2 - 2 ^ W * 2 := by
      rw [pow_succ, Nat.mod_eq_sub_mod (by omega), Nat.mod_eq_of_lt (by omega)]
    rw [if_pos (decide_eq_true hneg), zigzag, if_neg (by omega)] at hz
    rw [if_pos (decide_eq_true hneg), BitVec.xor_allOnes, BitVec.toNat_not, BitVec.toNat_shiftLeft, Nat.shiftLeft_eq, pow_one,
      hdouble, pow_succ]
    omega
  case neg =>
    have hdouble : x.toNat * 2 % 2 ^ (W + 1) = x.toNat * 2 := Nat.mod_eq_of_lt (by rw [pow_succ]; omega)
    rw [decide_eq_false hneg, if_neg Bool.false_ne_true, zigzag, if_pos (by omega)] at hz
    rw [decide_eq_false hneg, if_neg Bool.false_ne_true, BitVec.ofNat_eq_ofNat, BitVec.xor_zero, BitVec.toNat_shiftLeft,
      Nat.shiftLeft_eq, pow_one, hdouble]
    omega

/-- 40_zigzag.md R87, the decoding: half the pattern, complemented if it is odd. -/
theorem zigzagDecode_eq_bits {W : Nat} (u : BitVec (W + 1)) : zigzagDecode u = zigzagDecodeBits u := by
  have hu := u.isLt
  have hhalf : (2 : Nat) ^ (W + 1) = 2 ^ W * 2 := pow_succ 2 W
  rw [zigzagDecodeBits, signExtend_lowBit, ← BitVec.toInt_inj, zigzagDecode_toInt_bit]
  cases hodd : u.getLsbD 0
  case false =>
    rw [if_pos rfl, if_neg Bool.false_ne_true, BitVec.ofNat_eq_ofNat, BitVec.xor_zero, BitVec.toInt_eq_toNat_cond,
      BitVec.toNat_ushiftRight, Nat.shiftRight_eq_div_pow]
    omega
  case true =>
    rw [if_neg (by simp), if_pos rfl, BitVec.xor_allOnes, BitVec.toInt_eq_toNat_cond, BitVec.toNat_not,
      BitVec.toNat_ushiftRight, Nat.shiftRight_eq_div_pow]
    omega

/-- Settles O16: each transform equals its bitwise form at any width. -/
theorem zigzagBitwiseFormsAgree : Obligations.ZigzagBitwiseFormsAgree := by
  refine ⟨fun x s hs => ?_, fun u s hs => ?_, fun x s hs => ?_, fun u s hs => ?_⟩
  · rw [exec_zigzagEncode32_frame hs, zigzagEncode_eq_bits]
    rfl
  · rw [exec_zigzagDecode32_frame hs, zigzagDecode_eq_bits]
    rfl
  · rw [exec_zigzagEncode64_frame hs, zigzagEncode_eq_bits]
    rfl
  · rw [exec_zigzagDecode64_frame hs, zigzagDecode_eq_bits]
    rfl

/-! ### The order -/

/-- A zigzag encoding is below a power of two exactly when the integer lies in the signed range of as many bits. -/
theorem zigzag_lt_two_pow_iff (z : Int) {k : Nat} (hk : 1 ≤ k) :
    zigzag z < 2 ^ k ↔ -(2 ^ (k - 1) : Int) ≤ z ∧ z < 2 ^ (k - 1) := by
  obtain ⟨j, rfl⟩ := Nat.exists_eq_add_of_le' hk
  rw [Nat.add_sub_cancel, pow_succ]
  unfold zigzag
  split <;> omega

theorem zigzagEncode_lt_two_pow_iff {W : Nat} (x : BitVec (W + 1)) {k : Nat} (hk : 1 ≤ k) :
    (zigzagEncode x).toNat < 2 ^ k ↔ -(2 ^ (k - 1) : Int) ≤ x.toInt ∧ x.toInt < 2 ^ (k - 1) := by
  rw [← zigzag_lt_two_pow_iff _ hk, ← zigzagEncode_toNat]
  exact_mod_cast Iff.rfl

/-- Settles O17: the response is the zigzag encoding, in order of the integers' magnitude. -/
theorem zigzagOrdersByMagnitude : Obligations.ZigzagOrdersByMagnitude := by
  refine ⟨fun x s hs => ⟨_, exec_zigzagEncode32_frame hs x, fun k hk _ => ?_⟩,
    fun x s hs => ⟨_, exec_zigzagEncode64_frame hs x, fun k hk _ => zigzagEncode_lt_two_pow_iff x hk⟩⟩
  rw [BitVec.toNat_setWidth_of_le (by decide), zigzagEncode_lt_two_pow_iff x hk]

end Sys2Proof.Machine
end

section
/-! PROOFS. What an encoder or a signed write puts on the wire, the decoder or the signed read of its width takes off it
(41_varint_encode.md section 3, 43_signed_composition.md R146). -/

namespace Sys2Proof.Machine

/-- Settles O30: the bytes are `wireBytes`, and the decoder of the width reads them back. -/
theorem varintRoundTrip : Obligations.VarintRoundTrip :=
  ⟨fun x => ⟨_, encodes32_iff.2 rfl, decodes32_wireBytes x⟩, fun x => ⟨_, encodes64_iff.2 rfl, decodes64_wireBytes x⟩⟩

/-! ### The two commands of a signed pair -/

theorem writeVarI32_accepted (x : BitVec 32) {s : State} {tx : Sink Err} (hs : s.block = .idle)
    (hg : SinkGives s.tx .accept (wireBytes 5 (zigzagEncode x).toNat) tx) : writeVarI32 x s = .next { s with
      tx := tx
      responses := s.responses ++ [.ok ((zigzagEncode x).setWidth 64) 0,
        .ok 0 (BitVec.ofNat 4 (wireBytes 5 (zigzagEncode x).toNat).length)] } :=
  pair_of_accepted_write hs (exec_zigzagEncode32_frame hs x) (encode32_carried_oneWrite (zigzagEncode x)) hg

theorem writeVarI64_accepted (x : BitVec 64) {s : State} {tx : Sink Err} (hs : s.block = .idle)
    (hg : SinkGives s.tx .accept (wireBytes 9 (zigzagEncode x).toNat) tx) : writeVarI64 x s = .next { s with
      tx := tx
      responses := s.responses ++ [.ok (zigzagEncode x) 0,
        .ok 0 (BitVec.ofNat 4 (wireBytes 9 (zigzagEncode x).toNat).length)] } :=
  pair_of_accepted_write hs (exec_zigzagEncode64_frame hs x) (encode64_oneWrite (zigzagEncode x)) hg

theorem readVarI32_supplied (x : BitVec 32) {s : State} {rx : Source Err} (hs : s.block = .idle)
    (hsup : Supplies s.rx (wireBytes 5 (zigzagEncode x).toNat) rx) : readVarI32 s = .next { s with
      rx := rx
      responses := s.responses ++ [.ok ((zigzagEncode x).setWidth 64) 0, .ok (x.setWidth 64) 0] } :=
  pair_of_read hs (decodes32_wireBytes _) (exec_zigzagDecode32_encoded · x) hsup

theorem readVarI64_supplied (x : BitVec 64) {s : State} {rx : Source Err} (hs : s.block = .idle)
    (hsup : Supplies s.rx (wireBytes 9 (zigzagEncode x).toNat) rx) : readVarI64 s = .next { s with
      rx := rx
      responses := s.responses ++ [.ok (zigzagEncode x) 0, .ok x 0] } :=
  pair_of_read hs (decodes64_wireBytes _) (exec_zigzagDecode64_encoded · x) hsup

/-- Settles O39: the bytes are those of the zigzag encoding, which the decoder reads back and the zigzag decoder undoes. -/
theorem signedRoundTrip : Obligations.SignedRoundTrip :=
  ⟨fun x => ⟨_, fun _ _ hs hg => ⟨_, writeVarI32_accepted x hs hg⟩, fun _ _ hs hsup => ⟨_, readVarI32_supplied x hs hsup⟩⟩,
    fun x => ⟨_, fun _ _ hs hg => ⟨_, writeVarI64_accepted x hs hg⟩, fun _ _ hs hsup => ⟨_, readVarI64_supplied x hs hsup⟩⟩⟩

/-! ### The length of a signed write -/

/-- Short of the bound, the count says below which power of 128 the value lies. -/
theorem wireBytes_length_le_iff {bound v n : Nat} (hn : 1 ≤ n) (hb : n < bound + 1) :
    (wireBytes (bound + 1) v).length ≤ n ↔ v < 2 ^ (7 * n) := by
  constructor
  · intro hle
    exact (lt_of_wireBytes_length_lt (hle.trans_lt hb)).trans_le (Nat.pow_le_pow_right (by decide) (by omega))
  · intro hv
    by_contra hlt
    have hge := le_of_one_lt_wireBytes_length (show 1 < (wireBytes (bound + 1) v).length by omega)
    exact absurd (hv.trans_le (Nat.pow_le_pow_right (by decide) (by omega))) (not_lt.2 hge)

/-- Settles O40: below the maximum the count bounds the zigzag encoding, which bounds the integer on both sides. -/
theorem signedLength : Obligations.SignedLength := by
  refine ⟨fun x => ⟨_, fun _ _ hs hg => ⟨_, writeVarI32_accepted x hs hg⟩, wireBytes_length_pos 4 _, wireBytes_length_le 4 _,
      fun n hn hb => ?width32⟩,
    fun x => ⟨_, fun _ _ hs hg => ⟨_, writeVarI64_accepted x hs hg⟩, wireBytes_length_pos 8 _, wireBytes_length_le 8 _,
      fun n hn hb => ?width64⟩⟩
  case width32 => rw [wireBytes_length_le_iff hn hb, zigzagEncode_lt_two_pow_iff x (by omega)]
  case width64 => rw [wireBytes_length_le_iff hn hb, zigzagEncode_lt_two_pow_iff x (by omega)]

/-- Settles O41: what the encoder writes depends on its operand alone, which the host carries. -/
theorem nothingBetweenTheStepsDisturbsAPair : Obligations.NothingBetweenTheStepsDisturbsAPair := by
  refine ⟨fun x i s hs => ⟨_, wireBytes 5 (zigzagEncode x).toNat, _, exec_zigzagEncode32_frame hs x, rfl, fun tx hg => ?pair32,
      fun u tx _ hu => (encode32_carried_oneWrite (zigzagEncode x)).accepted u tx hu⟩,
    fun x i s hs => ⟨_, wireBytes 9 (zigzagEncode x).toNat, _, exec_zigzagEncode64_frame hs x, rfl, fun tx hg => ?pair64,
      fun u tx _ hu => (encode64_oneWrite (zigzagEncode x)).accepted u tx hu⟩⟩
  case pair32 => rw [List.append_assoc]; exact writeVarI32_accepted x hs hg
  case pair64 => rw [List.append_assoc]; exact writeVarI64_accepted x hs hg

end Sys2Proof.Machine
end

section
/-! PROOFS. What an operation can come to: from its start, and from each answer on, it responds or waits
(10_state.md section 4, 70_reset_and_hazards.md section 4). -/

namespace Sys2Proof.Machine

variable {ε : Type}

/-! ### Reads, one after the other -/

theorem readsTo_of_supplies {bs : List Byte} {rx rx' : Source ε} (h : Supplies rx bs rx') : ReadsTo bs.length rx rx' := by
  induction bs generalizing rx with
  | nil => exact h
  | cons b bs ih =>
    obtain ⟨next, hgives, hrest⟩ := h
    exact ⟨.byte b, next, hgives, ih hrest⟩

theorem ReadsTo.snoc {n : Nat} {rx mid rx' : Source ε} {a : RxAnswer ε} (h : ReadsTo n rx mid) (hg : SourceGives mid a rx') :
    ReadsTo (n + 1) rx rx' := by
  induction n generalizing rx with
  | zero =>
    obtain rfl : mid = rx := h
    exact ⟨a, rx', hg, rfl⟩
  | succ n ih =>
    obtain ⟨b, next, hgives, hrest⟩ := h
    exact ⟨b, next, hgives, ih hrest⟩

theorem SourceGives.after_eq {rx rx' : Source ε} {a : RxAnswer ε} (h : SourceGives rx a rx') : rx'.after = rx.after := by
  obtain ⟨_, _, rfl⟩ | ⟨_, _, rfl⟩ := h <;> rfl

theorem ReadsTo.after_eq {n : Nat} {rx rx' : Source ε} (h : ReadsTo n rx rx') : rx'.after = rx.after := by
  induction n generalizing rx with
  | zero => exact congrArg Source.after h
  | succ n ih =>
    obtain ⟨a, next, hgives, hrest⟩ := h
    exact (ih hrest).trans hgives.after_eq

/-! ### A response, or an access that is not answered -/

/-- What a run of an operation can come to from `s`: it responds after some reads or a write, or it waits for an access that
is not answered. It takes no move of the host. -/
inductive Progress (s : State.At ε) : State.At ε → Prop where
  | responds (x : Response ε) (n : Nat) (rx : Source ε) (tx : Sink ε) (hrx : ReadsTo n s.rx rx)
      (htx : s.tx.written <+: tx.written) : Progress s (respond x { s with rx := rx, tx := tx })
  | waits (op : InFlight) (n : Nat) (rx : Source ε) (hrx : ReadsTo n s.rx rx)
      (hop : answered op (await op { s with rx := rx }) = false) : Progress s (await op { s with rx := rx })

theorem respond_progress (x : Response ε) (s : State.At ε) : Progress s (respond x s) :=
  .responds x 0 s.rx s.tx rfl (List.prefix_refl _)

theorem encFinish_progress {W : Nat} {pending : EncState W → InFlight} (e : EncState W) (s : State.At ε)
    (hpending : ∀ t : State.At ε, answered (pending e) t = t.tx.answering) : Progress s (encFinish pending e s) := by
  obtain ⟨tx, hg, hrun⟩ | ⟨k, err, tx, hg, hrun⟩ | ⟨hsilent, hrun⟩ := encFinish_cases pending e s
  · rw [hrun]
    exact .responds _ 0 s.rx tx rfl (hg.written_eq ▸ List.prefix_append _ _)
  · rw [hrun]
    exact .responds _ 0 s.rx tx rfl (hg.written_eq ▸ List.prefix_append _ _)
  · rw [hrun]
    exact .waits _ 0 s.rx rfl ((hpending _).trans (Sink.answering_eq_false_iff.2 hsilent))

/-- A decoder that has no read left answers what it holds. -/
theorem decRun_spent {W bound : Nat} {pending : DecState W → InFlight} {last : Byte} {d : DecState W} {s : State.At ε}
    (h : bound ≤ d.i) : decRun pending bound last d s = respondOk (toPort d.acc) 0 s := by
  rw [decRun, Nat.sub_eq_zero_of_le h, decLoop]

theorem decRun_progress {W bound : Nat} {pending : DecState W → InFlight} {last : Byte} (d : DecState W) (s : State.At ε)
    (hpending : ∀ (d : DecState W) (t : State.At ε), answered (pending d) t = t.rx.answering) :
    Progress s (decRun pending bound last d s) := by
  obtain hspent | hd := le_or_gt bound d.i
  · rw [decRun_spent hspent]
    exact respond_progress _ s
  · obtain ⟨init, b, rx, hsup, -, hrun⟩ | ⟨init, e, mid, rx, hsup, -, -, hg, hrun⟩ | ⟨init, mid, hsup, -, -, hsilent, hrun⟩ :=
      decRun_cases pending last s hd
    · rw [hrun]
      exact .responds _ _ rx s.tx (readsTo_of_supplies hsup) (List.prefix_refl _)
    · rw [hrun]
      exact .responds _ _ rx s.tx ((readsTo_of_supplies hsup).snoc hg) (List.prefix_refl _)
    · rw [hrun]
      exact .waits _ _ mid (readsTo_of_supplies hsup) ((hpending _ _).trans (Source.answering_eq_false_iff.2 hsilent))

theorem resume_progress (p : Profile) (op : InFlight) (s : State.At ε) : Progress s (resume p op s) := by
  cases op with
  | encode32 e => exact encFinish_progress e s fun _ => rfl
  | encode64 e => exact encFinish_progress e s fun _ => rfl
  | decode32 d => exact decRun_progress d s fun _ _ => rfl
  | decode64 d => exact decRun_progress d s fun _ _ => rfl

/-! ### A command is pure, or the start of an operation -/

/-- The operation that a varint command begins; a zigzag command makes no access and begins none (10_state.md R32). -/
def begins (p : Profile) : Instr → Option InFlight
  | .zigzagEncode32 _ => none
  | .zigzagDecode32 _ => none
  | .zigzagEncode64 _ => none
  | .zigzagDecode64 _ => none
  | .varintEncodeUnsigned32 x => some (.encode32 (encForm (maxB p .w32) x))
  | .varintDecodeUnsigned32 => some (.decode32 (DecState.start 32))
  | .varintEncodeUnsigned64 x => some (.encode64 (encForm (maxB p .w64) x))
  | .varintDecodeUnsigned64 => some (.decode64 (DecState.start 64))

theorem execAt_of_begins {p : Profile} {i : Instr} {op : InFlight} {s : State.At ε} (hs : s.block = .idle)
    (h : begins p i = some op) : execAt p i s = .next (resume p op s) := by
  cases i <;> cases h <;> exact whenIdle_idle hs

theorem execAt_of_begins_none {p : Profile} {i : Instr} {s : State.At ε} (hs : s.block = .idle) (h : begins p i = none) :
    ∃ r, execAt p i s = .next (respondOk r 0 s) := by
  cases i <;> cases h <;> exact ⟨_, whenIdle_idle hs⟩

theorem layer_of_begins {p : Profile} {i : Instr} {op : InFlight} (h : begins p i = some op) : i.op.layer = .varint := by
  cases i <;> cases h <;> rfl

theorem exec_of_begins {i : Instr} {op : InFlight} {s : State} (hs : s.block = .idle) (h : begins profile i = some op) :
    exec i s = .next (resume profile op s) := execAt_profile i s ▸ execAt_of_begins hs h

theorem exec_of_begins_none {i : Instr} {s : State} (hs : s.block = .idle) (h : begins profile i = none) :
    ∃ r, exec i s = .next (respondOk r 0 s) := execAt_profile i s ▸ execAt_of_begins_none hs h

theorem exec_progress {i : Instr} {s t : State} (hs : s.block = .idle) (hexec : exec i s = .next t) : Progress s t := by
  cases h : begins profile i with
  | none =>
    obtain ⟨r, hrun⟩ := exec_of_begins_none hs h
    rw [hrun] at hexec
    cases hexec
    exact respond_progress _ s
  | some op =>
    rw [exec_of_begins hs h] at hexec
    cases hexec
    exact resume_progress profile op s

/-! ### What follows from it -/

theorem Progress.agenda_eq {s t : State.At ε} (h : Progress s t) : t.agenda = s.agenda := by cases h <;> rfl

theorem Progress.written_prefix {s t : State.At ε} (h : Progress s t) : s.tx.written <+: t.tx.written := by
  cases h with
  | responds x n rx tx hrx htx => exact htx
  | waits op n rx hrx hop => exact List.prefix_refl _

theorem Progress.responds_or_waits {s t : State.At ε} (h : Progress s t) :
    (t.block = .idle ∧ ∃ x, t.responses = s.responses ++ [x]) ∨
      (t.responses = s.responses ∧ ∃ op, t.block = .busy op ∧ answered op t = false) := by
  cases h with
  | responds x n rx tx hrx htx => exact .inl ⟨rfl, x, rfl⟩
  | waits op n rx hrx hop => exact .inr ⟨rfl, op, rfl, hop⟩

theorem Progress.responses_grow {s t : State.At ε} (h : Progress s t) :
    t.responses = s.responses ∨ ∃ x, t.responses = s.responses ++ [x] := by
  obtain ⟨-, hx⟩ | ⟨hsame, -⟩ := h.responds_or_waits
  · exact .inr hx
  · exact .inl hsame

/-- An access that is not answered is one of a stream that has no answer for ever. -/
theorem after_of_not_answered {op : InFlight} {s : State.At ε} (h : answered op s = false) :
    s.rx.after = none ∨ s.tx.after = none := by
  cases op with
  | encode32 e => exact .inr (Sink.answering_eq_false_iff.1 h).2
  | encode64 e => exact .inr (Sink.answering_eq_false_iff.1 h).2
  | decode32 d => exact .inl (Source.answering_eq_false_iff.1 h).2
  | decode64 d => exact .inl (Source.answering_eq_false_iff.1 h).2

/-- Where both streams answer for ever, an operation responds. -/
theorem Progress.responds_of_after {s t : State.At ε} (h : Progress s t) (hrx : s.rx.after ≠ none) (htx : s.tx.after ≠ none) :
    t.block = .idle ∧ ∃ x, t.responses = s.responses ++ [x] := by
  cases h with
  | responds x n rx tx _ _ => exact ⟨rfl, x, rfl⟩
  | waits op n rx hreads hop =>
    obtain hnone | hnone := after_of_not_answered hop
    · exact absurd (hreads.after_eq.symm.trans hnone) hrx
    · exact absurd hnone htx

end Sys2Proof.Machine
end

section
/-! PROOFS. What a move of the host leaves as it is, and which state a step comes to by the block's own state
(70_reset_and_hazards.md sections 1, 3 and 7). -/

namespace Sys2Proof.Machine

variable {ε : Type}

/-! ### Reset -/

variable (k : Nat) (s : State.At ε)

@[simp] theorem assertReset_block : (assertReset k s).block = .inReset := by unfold assertReset; split <;> rfl
@[simp] theorem assertReset_rx : (assertReset k s).rx = s.rx := by unfold assertReset; split <;> rfl
@[simp] theorem assertReset_agenda : (assertReset k s).agenda = s.agenda := by unfold assertReset; split <;> rfl
@[simp] theorem assertReset_responses : (assertReset k s).responses = s.responses := by unfold assertReset; split <;> rfl

theorem assertReset_written_prefix : s.tx.written <+: (assertReset k s).tx.written := by
  unfold assertReset
  split
  · exact List.prefix_append _ _
  · exact List.prefix_append _ _
  all_goals exact List.prefix_refl _

theorem releaseReset_of_ne {s : State.At ε} (h : s.block ≠ .inReset) : releaseReset s = s := by
  cases hb : s.block with
  | idle => simp [releaseReset, hb]
  | busy op => simp [releaseReset, hb]
  | inReset => exact absurd hb h

theorem releaseReset_inReset {s : State.At ε} (h : s.block = .inReset) : releaseReset s = { s with block := .idle } := by
  simp [releaseReset, h]

theorem assertReset_idle {s : State.At ε} (h : s.block = .idle) : assertReset k s = { s with block := .inReset } := by
  simp [assertReset, h]

theorem assertReset_inReset {s : State.At ε} (h : s.block = .inReset) : assertReset k s = s := by
  unfold assertReset
  rw [h]
  simp [← h]

/-! ### The host's move -/

/-- What a move of the host leaves as it is: the responses, the block but for reset, what is written but for a rewired sink,
and with no move left everything. -/
structure MoveFrame (s t : State.At ε) : Prop where
  responses : t.responses = s.responses
  block : t.block = s.block ∨ (t.block = .inReset ∧ ∃ k rest, s.agenda = .assertReset k :: rest) ∨
    (s.block = .inReset ∧ ∃ rest, s.agenda = .releaseReset :: rest ∧ t = { s with block := .idle, agenda := rest })
  written : (∀ tx rest, s.agenda ≠ .connectTx tx :: rest) → s.tx.written <+: t.tx.written
  noMove : s.agenda = [] → t = s

theorem nextAction_move_frame {s t : State.At ε} (h : nextAction s = .move t) : MoveFrame s t := by
  have hrefl := List.prefix_refl s.tx.written
  obtain rfl | ⟨m, rest, hm, hmove⟩ := nextAction_move h
  · exact ⟨rfl, .inl rfl, fun _ => hrefl, fun _ => rfl⟩
  · have hnone : s.agenda = [] → t = s := by simp [hm]
    obtain ⟨a, -, rfl⟩ | ⟨a, -, rfl⟩ | ⟨rx, -, rfl⟩ | ⟨tx, rfl, rfl⟩ | ⟨e, -, rfl⟩ | ⟨k, rfl, rfl⟩ | ⟨rfl, rfl⟩ := hmove
    · exact ⟨rfl, .inl rfl, fun _ => hrefl, hnone⟩
    · exact ⟨rfl, .inl rfl, fun _ => hrefl, hnone⟩
    · exact ⟨rfl, .inl rfl, fun _ => hrefl, hnone⟩
    · exact ⟨rfl, .inl rfl, fun hno => absurd hm (hno tx rest), hnone⟩
    · exact ⟨rfl, .inl rfl, fun _ => hrefl, hnone⟩
    · exact ⟨assertReset_responses _ _, .inr (.inl ⟨assertReset_block _ _, k, rest, hm⟩),
        fun _ => assertReset_written_prefix k { s with agenda := rest }, hnone⟩
    · by_cases hb : s.block = .inReset
      · rw [releaseReset_inReset (s := { s with agenda := rest }) hb] at hnone ⊢
        exact ⟨rfl, .inr (.inr ⟨hb, rest, hm, rfl⟩), fun _ => hrefl, hnone⟩
      · rw [releaseReset_of_ne (s := { s with agenda := rest }) hb] at hnone ⊢
        exact ⟨rfl, .inl rfl, fun _ => hrefl, hnone⟩

/-! ### The step, by the block's own state -/

theorem nextAction_idle {s : State.At ε} (h : s.block = .idle) : nextAction s = moveIdle s := by simp [nextAction, h]

theorem nextAction_inReset {s : State.At ε} (h : s.block = .inReset) : nextAction s = moveInReset s := by simp [nextAction, h]

theorem nextAction_answered {s : State.At ε} {op : InFlight} (h : s.block = .busy op) (ha : answered op s = true) :
    nextAction s = .resume op := by simp [nextAction, h, ha]

theorem nextAction_waiting {s : State.At ε} {op : InFlight} (h : s.block = .busy op) (ha : answered op s = false) :
    nextAction s = moveBusy s := by simp [nextAction, h, ha]

theorem moveBusy_move (s : State.At ε) : ∃ t, moveBusy s = .move t := by
  unfold moveBusy
  split <;> exact ⟨_, rfl⟩

theorem stepAt_of_resume {p : Profile} {s : State.At ε} {op : InFlight} (h : nextAction s = .resume op) :
    stepAt p s = .next (resume p op s) := by rw [stepAt, h]

theorem stepAt_of_move {p : Profile} {s t : State.At ε} (h : nextAction s = .move t) : stepAt p s = .next t := by
  rw [stepAt, h]

theorem step_of_resume {s : State} {op : InFlight} (h : nextAction s = .resume op) :
    step s = .next (resume profile op s) := by rw [step, h]

theorem step_of_run {s t : State} {i : Instr} (h : nextAction s = .run i t) : step s = exec i t := by rw [step, h]

theorem step_of_move {s t : State} (h : nextAction s = .move t) : step s = .next t := by rw [step, h]

end Sys2Proof.Machine
end

section
/-! PROOFS. The obligations on progress, and on what every step keeps or adds (70_reset_and_hazards.md section 4,
60_exceptions.md section 1). -/

namespace Sys2Proof.Machine

/-- Settles O55: an operation, a command and a move each come to a next state. -/
theorem everyStateHasANext : Obligations.EveryStateHasANext := by
  intro s
  obtain ⟨op, -, hstep⟩ | ⟨i, t, -, hstep⟩ | ⟨t, -, hstep⟩ := step_cases s
  · exact ⟨_, hstep⟩
  · rw [hstep]
    exact exec_next i t
  · exact ⟨t, hstep⟩

/-- Settles O54: an operation appends what it writes and responds at most once, and a move does neither. -/
theorem writtenBytesAndResponsesOnlyGrow : Obligations.WrittenBytesAndResponsesOnlyGrow := by
  intro s t ht
  obtain ⟨op, -, hstep⟩ | ⟨i, u, hrun, hstep⟩ | ⟨u, hmove, hstep⟩ := step_cases s
  · rw [hstep] at ht
    cases ht
    have hprogress := resume_progress profile op s
    exact ⟨hprogress.responses_grow, fun _ => hprogress.written_prefix⟩
  · obtain ⟨hidle, w, rest, -, -, rfl⟩ := nextAction_run hrun
    have hprogress := exec_progress (s := { s with agenda := rest }) hidle (hstep.symm.trans ht)
    exact ⟨hprogress.responses_grow, fun _ => hprogress.written_prefix⟩
  · rw [hstep] at ht
    cases ht
    have hframe := nextAction_move_frame hmove
    exact ⟨.inl hframe.responses, hframe.written⟩

/-- While an access is not answered no step responds, and only reset ends the waiting. -/
theorem step_waiting {s : State} {op : InFlight} (hb : s.block = .busy op) (ha : answered op s = false) :
    ∃ t, step s = .next t ∧ t.responses = s.responses ∧
      (t.block = .busy op ∨ t.block = .inReset ∧ ∃ k rest, s.agenda = .assertReset k :: rest) ∧
      (s.agenda = [] → t = s) := by
  obtain ⟨t, hmove⟩ := moveBusy_move s
  have hnext := (nextAction_waiting hb ha).trans hmove
  have hframe := nextAction_move_frame hnext
  refine ⟨t, step_of_move hnext, hframe.responses, ?_, hframe.noMove⟩
  obtain hsame | hreset | ⟨hin, -⟩ := hframe.block
  · exact .inl (hsame.trans hb)
  · exact .inr hreset
  · simp [hb] at hin

/-- Settles O46: an operation responds or waits for an access that is not answered, and waiting ends by an answer or a reset. -/
theorem anOperationRespondsIffAnswered : Obligations.AnOperationRespondsIffAnswered := by
  refine ⟨fun i s t hs hexec => ?start, fun i s hs hrx htx => ?always, fun s op hb ha => ?resumed, fun s op => step_waiting⟩
  case start =>
    cases hbegins : begins profile i with
    | none =>
      obtain ⟨r, hrun⟩ := exec_of_begins_none hs hbegins
      rw [hrun] at hexec
      cases hexec
      exact .inl ⟨rfl, _, rfl⟩
    | some op => exact (exec_progress hs hexec).responds_or_waits.imp_right fun h => ⟨layer_of_begins hbegins, h⟩
  case always =>
    obtain ⟨t, hexec⟩ := exec_next i s
    obtain ⟨hidle, x, hx⟩ := (exec_progress hs hexec).responds_of_after hrx htx
    exact ⟨t, x, hexec, hidle, hx⟩
  case resumed =>
    exact ⟨_, step_of_resume (nextAction_answered hb ha), (resume_progress profile op s).responds_or_waits⟩

end Sys2Proof.Machine
end

section
/-! PROOFS. The invariant of a run: what is in flight stays sound, and every response is one that an operation may give
(10_state.md sections 3 and 4, 41_varint_encode.md R101, 42_varint_decode.md R121). -/

namespace Sys2Proof.Machine

variable {ε : Type}

/-! ### The encoder -/

/-- What the encoder's loop leaves of the value: what lies above the bytes formed. -/
theorem encLoop_v {W : Nat} (bound fuel : Nat) (e : EncState W) (h : e.i + (fuel + 1) = bound) :
    (encLoop bound (fuel + 1) e).v.toNat = e.v.toNat / 128 ^ (wireBytes (fuel + 1) e.v.toNat).length := by
  have hshift (v : BitVec W) : (v >>> 7).toNat = v.toNat / 128 := by
    rw [BitVec.toNat_ushiftRight, Nat.shiftRight_eq_div_pow]
  induction fuel generalizing e with
  | zero =>
    rw [encLoop, if_pos (.inr h)]
    by_cases hv : e.v.toNat / 128 = 0
    · simp [wireBytes_last hv, hshift]
    · simp [wireBytes_bound hv, hshift]
  | succ n ih =>
    rw [encLoop]
    by_cases hv : e.v.toNat / 128 = 0
    · rw [if_pos (.inl ((shift7_eq_zero_iff e.v).2 hv)), wireBytes_last hv, List.length_singleton, pow_one]
      exact hshift e.v
    · have hmore : ¬ (e.v >>> 7 = 0 ∨ e.i + 1 = bound) := by
        rw [shift7_eq_zero_iff]
        omega
      rw [if_neg hmore, ih _ (by simp only; omega), wireBytes_more hv, List.length_cons, pow_succ', ← Nat.div_div_eq_div_mul]
      simp only [hshift]

/-- Five bytes hold a 32-bit value whole. -/
theorem encForm32_v (x : BitVec 32) : (encForm (maxB profile .w32) x).v = 0 := by
  have hleft := encLoop_v 5 4 (EncState.start x) rfl
  rw [← BitVec.toNat_inj]
  exact hleft.trans (Nat.div_eq_of_lt ((lt_of_wireBytes32 x).trans_eq (pow_mul 2 7 _)))

theorem EncState.Sound.count_le {W bound : Nat} {e : EncState W} (h : e.Sound bound) : e.i + 1 ≤ bound := by
  obtain ⟨hcount, -, init, last, hbuf, hl, -⟩ := h
  rw [hbuf, List.length_append, List.length_singleton] at hcount
  omega

theorem ok_zero_sound (r : Port) : (Response.ok r 0 : Response ε).Sound := ⟨.inr rfl, by decide⟩

theorem ok_count_sound {n : Nat} (h : n ≤ 9) : (Response.ok 0 (toCount n) : Response ε).Sound :=
  ⟨.inl rfl, (BitVec.toNat_ofNat n 4 ▸ Nat.mod_le n _).trans h⟩

/-! ### The invariant after an operation -/

theorem respond_inv {x : Response ε} {s : State.At ε} (hx : x.Sound) (hs : ∀ y ∈ s.responses, y.Sound) :
    (respond x s).Inv := by
  refine ⟨trivial, fun y hy => ?_⟩
  obtain hy | hy := List.mem_append.1 hy
  · exact hs y hy
  · exact List.mem_singleton.1 hy ▸ hx

theorem encFinish_inv {W : Nat} {pending : EncState W → InFlight} {e : EncState W} {s : State.At ε}
    (hop : (Block.busy (pending e)).Sound) (hcount : e.i + 1 ≤ 9) (hs : ∀ y ∈ s.responses, y.Sound) :
    (encFinish pending e s).Inv := by
  obtain ⟨tx, -, hrun⟩ | ⟨k, err, tx, -, hrun⟩ | ⟨-, hrun⟩ := encFinish_cases pending e s
  · rw [hrun]
    exact respond_inv (ok_count_sound hcount) hs
  · rw [hrun]
    exact respond_inv trivial hs
  · rw [hrun]
    exact ⟨hop, hs⟩

/-- Bytes that say more follow keep a decoder sound. -/
theorem DecState.Sound.after {W bound : Nat} {last : Byte} {d : DecState W} {init : List Byte} (hd : d.Sound bound)
    (hl : d.i + init.length < bound) (hmore : ∀ b ∈ init, continues b = true) : (d.after bound last init).Sound bound := by
  obtain ⟨-, hacc, hb⟩ := hd
  refine ⟨by rwa [DecState.after_i], by rw [DecState.after_i]; exact DecState.after_lt hacc hl, ?_⟩
  rw [DecState.after_b, DecState.after_i]
  cases hlast : init.getLast? with
  | none =>
    obtain rfl := List.getLast?_eq_none_iff.1 hlast
    exact hb
  | some b =>
    have hmem := List.mem_of_getLast? hlast
    exact ⟨(List.length_pos_of_mem hmem).trans_le (Nat.le_add_left _ _), hmore b hmem⟩

theorem decRun_inv {W bound : Nat} {pending : DecState W → InFlight} {last : Byte} {d : DecState W} {s : State.At ε}
    (hpending : ∀ d : DecState W, d.Sound bound → (Block.busy (pending d)).Sound) (hd : d.Sound bound)
    (hs : ∀ y ∈ s.responses, y.Sound) : (decRun pending bound last d s).Inv := by
  obtain ⟨init, b, rx, -, -, hrun⟩ | ⟨init, e, mid, rx, -, -, -, -, hrun⟩ | ⟨init, mid, -, hl, hmore, -, hrun⟩ :=
    decRun_cases pending last s hd.1
  · rw [hrun]
    exact respond_inv (ok_zero_sound _) hs
  · rw [hrun]
    exact respond_inv trivial hs
  · rw [hrun]
    exact ⟨hpending _ (hd.after hl hmore), hs⟩

theorem resume_inv {op : InFlight} {s : State.At ε} (hop : (Block.busy op).Sound) (hs : ∀ y ∈ s.responses, y.Sound) :
    (resume profile op s).Inv := by
  cases op with
  | encode32 e => exact encFinish_inv hop (hop.1.count_le.trans (by decide)) hs
  | encode64 e => exact encFinish_inv hop (EncState.Sound.count_le hop) hs
  | decode32 d => exact decRun_inv (fun _ => id) hop hs
  | decode64 d => exact decRun_inv (fun _ => id) hop hs

theorem DecState.start_sound (W bound : Nat) : (DecState.start W).Sound (bound + 1) :=
  ⟨Nat.succ_pos bound, start_lt W, rfl⟩

theorem begins_sound {i : Instr} {op : InFlight} (h : begins profile i = some op) : (Block.busy op).Sound := by
  cases i <;> cases h
  case varintEncodeUnsigned32 x => exact ⟨(encForm_spec 4 x).2.2, encForm32_v x⟩
  case varintDecodeUnsigned32 => exact DecState.start_sound 32 4
  case varintEncodeUnsigned64 x => exact (encForm_spec 8 x).2.2
  case varintDecodeUnsigned64 => exact DecState.start_sound 64 8

theorem exec_inv {i : Instr} {s t : State} (hs : s.block = .idle) (hinv : s.Inv) (hexec : exec i s = .next t) : t.Inv := by
  cases hbegins : begins profile i with
  | none =>
    obtain ⟨r, hrun⟩ := exec_of_begins_none hs hbegins
    rw [hrun] at hexec
    cases hexec
    exact respond_inv (ok_zero_sound r) hinv.2
  | some op =>
    rw [exec_of_begins hs hbegins] at hexec
    cases hexec
    exact resume_inv (begins_sound hbegins) hinv.2

/-! ### The invariant after a step -/

theorem MoveFrame.inv {s t : State.At ε} (h : MoveFrame s t) (hinv : s.Inv) : t.Inv := by
  refine ⟨?_, h.responses ▸ hinv.2⟩
  obtain hsame | ⟨hreset, -⟩ | ⟨-, rest, -, rfl⟩ := h.block
  · exact hsame ▸ hinv.1
  · exact hreset ▸ trivial
  · trivial

/-- Settles O57: an operation in flight is sound from its start and after every byte, and a move keeps it or ends it. -/
theorem stepKeepsTheInvariant : Obligations.StepKeepsTheInvariant := by
  intro s t hinv ht
  obtain ⟨op, hresume, hstep⟩ | ⟨i, u, hrun, hstep⟩ | ⟨u, hmove, hstep⟩ := step_cases s
  · rw [hstep] at ht
    cases ht
    have hop := hinv.1
    rw [(nextAction_resume hresume).1] at hop
    exact resume_inv hop hinv.2
  · obtain ⟨hidle, w, rest, -, -, rfl⟩ := nextAction_run hrun
    exact exec_inv (s := { s with agenda := rest }) hidle hinv (hstep.symm.trans ht)
  · rw [hstep] at ht
    cases ht
    exact (nextAction_move_frame hmove).inv hinv

/-- Settles O58: the idle block holds nothing, and no response has been given. -/
theorem resetMeetsTheInvariant : Obligations.ResetMeetsTheInvariant :=
  ⟨rfl, trivial, fun _ hx => absurd hx List.not_mem_nil⟩

end Sys2Proof.Machine
end

section
/-! PROOFS. Which side of the channel each operation uses, and whose failure values it reports (20_memory.md section 2,
60_exceptions.md R150). -/

namespace Sys2Proof.Machine

variable {ε : Type}

/-! ### The failures a stream may yet report -/

theorem SourceGives.mayFail {rx rx' : Source ε} {e : ε} (h : SourceGives rx (.fail e) rx') : rx.mayFail e := by
  obtain ⟨as, ha, -⟩ | ⟨-, hafter, -⟩ := h
  · exact .inl (ha ▸ List.mem_cons_self)
  · exact .inr hafter

/-- A failure that remains ahead after a read was ahead before it. -/
theorem SourceGives.mayFail_of_mayFail {rx rx' : Source ε} {a : RxAnswer ε} {e : ε} (h : SourceGives rx a rx')
    (he : rx'.mayFail e) : rx.mayFail e := by
  obtain ⟨as, ha, rfl⟩ | ⟨-, -, rfl⟩ := h
  · exact he.imp_left fun hmem => ha ▸ List.mem_cons_of_mem a hmem
  · exact he

theorem mayFail_of_supplies {bs : List Byte} {rx rx' : Source ε} {e : ε} (h : Supplies rx bs rx') (he : rx'.mayFail e) :
    rx.mayFail e := by
  induction bs generalizing rx with
  | nil => exact h ▸ he
  | cons b bs ih =>
    obtain ⟨next, hgives, hrest⟩ := h
    exact hgives.mayFail_of_mayFail (ih hrest)

theorem SinkGives.mayFail {tx tx' : Sink ε} {k : Nat} {e : ε} {bs : List Byte} (h : SinkGives tx (.fail k e) bs tx') :
    tx.mayFail e := by
  obtain ⟨as, ha, -⟩ | ⟨-, hafter, -⟩ := h
  · exact ⟨k, .inl (ha ▸ List.mem_cons_self)⟩
  · exact ⟨k, .inr hafter⟩

/-! ### One kind of command at a time -/

section
variable {i : Instr} {s t : State} {e : Err} (hs : s.block = .idle) (hexec : exec i s = .next t)
include hs hexec

theorem exec_pure_cases (h : begins profile i = none) : ∃ r, t = respondOk r 0 s := by
  obtain ⟨r, hrun⟩ := exec_of_begins_none hs h
  exact ⟨r, (Host.Outcome.next.inj (hrun.symm.trans hexec)).symm⟩

theorem OneWrite.mayFail {bs : List Byte} {op : InFlight} (h : OneWrite i bs op)
    (hr : t.responses = s.responses ++ [.fail e]) : s.tx.mayFail e := by
  obtain ⟨k, hg⟩ := h.exists_fail hs hexec hr
  exact hg.mayFail

/-- A command that makes one write leaves `RX`, and gives `TX` its bytes or nothing. -/
theorem OneWrite.channel {bs : List Byte} {op : InFlight} (h : OneWrite i bs op) :
    t.rx = s.rx ∧ ((SinkSilent s.tx ∧ t.tx = s.tx) ∨ ∃ a cs, SinkGives s.tx a cs t.tx ∧ cs.length ≤ bs.length) := by
  obtain ⟨a, tx, hg⟩ | hsilent := sink_gives_or_silent bs s.tx
  · cases a with
    | accept =>
      rw [h.accepted s tx hs hg] at hexec
      cases hexec
      exact ⟨rfl, .inr ⟨_, _, hg, le_rfl⟩⟩
    | fail k e =>
      rw [h.failed s k e tx hs hg] at hexec
      cases hexec
      exact ⟨rfl, .inr ⟨_, _, hg, List.length_take_le' k bs⟩⟩
  · rw [h.silent s hs hsilent] at hexec
    cases hexec
    exact ⟨rfl, .inl ⟨hsilent, rfl⟩⟩

section
variable {W bound : Nat} {pending : DecState W → InFlight} {last : Byte} (hpos : 0 < bound)
include hpos

theorem RunsLoop.mayFail (h : RunsLoop i pending bound last) (hr : t.responses = s.responses ++ [.fail e]) :
    s.rx.mayFail e := by
  obtain ⟨init, mid, -, -, hsup, hg⟩ := h.exists_failed_read hpos hs hexec hr
  exact mayFail_of_supplies hsup hg.mayFail

/-- A command that runs the decoder's loop leaves `TX`, and makes at most as many reads as the bound, and one before it
responds. -/
theorem RunsLoop.channel (h : RunsLoop i pending bound last) :
    t.tx = s.tx ∧ ∃ n, ReadsTo n s.rx t.rx ∧ n ≤ bound ∧ (t.block = .idle → 1 ≤ n) := by
  obtain rfl := Host.Outcome.next.inj ((h s hs).symm.trans hexec)
  obtain ⟨init, b, rx, hsup, hends, hrun⟩ | ⟨init, e, mid, rx, hsup, hl, -, hg, hrun⟩ | ⟨init, mid, hsup, hl, -, -, hrun⟩ :=
    decRun_cases pending last (d := DecState.start W) s hpos
  · rw [hrun]
    refine ⟨rfl, _, readsTo_of_supplies hsup, ?_, fun _ => by simp⟩
    rw [List.length_append]
    exact hends.1
  · rw [hrun]
    exact ⟨rfl, _, (readsTo_of_supplies hsup).snoc hg, by simpa using hl, fun _ => Nat.succ_pos _⟩
  · rw [hrun]
    exact ⟨rfl, _, readsTo_of_supplies hsup, by simpa using hl.le, fun hidle => by cases hidle⟩

end

end

/-- The three kinds of command: a pure one, one that makes one write, one that runs the decoder's loop. -/
inductive CommandKind (i : Instr) : Prop where
  | pure (layer : i.op.layer = .zigzag) (beginsNone : begins profile i = none)
  | write (layer : i.op.layer = .varint) (direction : i.op.direction = .encode) (bs : List Byte) (op : InFlight)
      (run : OneWrite i bs op) (length : bs.length ≤ if i.op.width = .w32 then 5 else 9)
  | read (layer : i.op.layer = .varint) (direction : i.op.direction = .decode) {W : Nat} (pending : DecState W → InFlight)
      (last : Byte) (run : RunsLoop i pending (if i.op.width = .w32 then 5 else 9) last)

theorem command_kind (i : Instr) : CommandKind i := by
  cases i with
  | zigzagEncode32 x => exact .pure rfl rfl
  | zigzagDecode32 u => exact .pure rfl rfl
  | zigzagEncode64 x => exact .pure rfl rfl
  | zigzagDecode64 u => exact .pure rfl rfl
  | varintEncodeUnsigned32 x => exact .write rfl rfl _ _ (encode32_oneWrite x) (wireBytes_length_le 4 _)
  | varintDecodeUnsigned32 => exact .read rfl rfl _ _ decode32_runsLoop
  | varintEncodeUnsigned64 x => exact .write rfl rfl _ _ (encode64_oneWrite x) (wireBytes_length_le 8 _)
  | varintDecodeUnsigned64 => exact .read rfl rfl _ _ decode64_runsLoop

theorem bound_pos (w : Width) : 0 < if w = .w32 then 5 else 9 := by cases w <;> decide

/-- Settles O43: a pure command makes no access, an encoder one write of its bytes, a decoder the reads of its loop. -/
theorem channelUseOfEachOperation : Obligations.ChannelUseOfEachOperation := by
  intro i s t hs hexec
  cases command_kind i with
  | pure layer beginsNone =>
    obtain ⟨r, rfl⟩ := exec_pure_cases hs hexec beginsNone
    simp [layer]
  | write layer direction bs op run length =>
    obtain ⟨hrx, htx⟩ := run.channel hs hexec
    exact ⟨by simp [layer], fun _ _ => ⟨hrx, htx.imp_right fun ⟨a, cs, hg, hl⟩ => ⟨a, cs, hg, hl.trans length⟩⟩,
      by simp [direction]⟩
  | read layer direction pending last run =>
    exact ⟨by simp [layer], by simp [direction], fun _ _ => run.channel hs hexec (bound_pos _)⟩

/-- Settles O44: a pure command answers `Ok`, and the failure of a write or a read is an answer that stood ahead of it. -/
theorem failureValuesAreTheChannels : Obligations.FailureValuesAreTheChannels := by
  intro i s t e hs hexec hr
  cases command_kind i with
  | pure layer beginsNone =>
    obtain ⟨r, rfl⟩ := exec_pure_cases hs hexec beginsNone
    simp at hr
  | write layer direction bs op run length => exact ⟨layer, by simp [direction], fun _ => run.mayFail hs hexec hr⟩
  | read layer direction pending last run =>
    exact ⟨layer, fun _ => run.mayFail hs hexec (bound_pos _) hr, by simp [direction]⟩

end Sys2Proof.Machine
end

section
/-! PROOFS. The host's moves, one by one: commands accepted and held off, reset, and the moves on the channel
(70_reset_and_hazards.md sections 1, 3 and 7). -/

namespace Sys2Proof.Machine

/-! ### Commands -/

/-- Settles O9: on an idle block the first of the agenda is what comes next. -/
theorem stepRunsThePresentedCommand : Obligations.StepRunsThePresentedCommand := by
  intro s w rest hidle hagenda
  exact step_of_run (by rw [nextAction_idle hidle, moveIdle, hagenda])

section
variable {s : State} {op : InFlight} (hb : s.block = .busy op)
include hb

/-- An answered access completes before the host's next move. -/
theorem step_answered (ha : answered op s = true) :
    ∃ t, step s = .next t ∧ t.agenda = s.agenda :=
  ⟨_, step_of_resume (nextAction_answered hb ha), (resume_progress profile op s).agenda_eq⟩

/-- A waiting operation keeps the host from every move but serving and reset. -/
theorem step_waiting_held (ha : answered op s = false) (hmove : moveBusy s = .move s) : step s = .next s :=
  step_of_move ((nextAction_waiting hb ha).trans hmove)

end

/-- Settles O47: an answered operation goes on and leaves the agenda, and one that waits leaves everything. -/
theorem commandsAreHeldOffWhileBusy : Obligations.CommandsAreHeldOffWhileBusy := by
  intro s op w rest hb hagenda
  have hheld : answered op s = false → step s = .next s := fun ha =>
    step_waiting_held hb ha (by rw [moveBusy, hagenda])
  refine ⟨?_, hheld⟩
  cases ha : answered op s with
  | true => exact step_answered hb ha
  | false => exact ⟨s, hheld ha, rfl⟩

/-- Settles O48: the word put back is the canonical one, which decodes to the command. -/
theorem execHoldsOffOnABlockNotIdle : Obligations.ExecHoldsOffOnABlockNotIdle :=
  fun i _ hs => ⟨encode i, decode_encode i, exec_held hs⟩

/-! ### Reset -/

/-- In reset the host makes a move, or nothing happens. -/
theorem moveInReset_move {ε : Type} (s : State.At ε) : ∃ t, moveInReset s = .move t := by
  unfold moveInReset
  split <;> exact ⟨_, rfl⟩

/-- Settles O50: the two moves of reset set the block, and in reset the host makes only moves, which never respond. -/
theorem resetHoldsTheBlock : Obligations.ResetHoldsTheBlock := by
  refine ⟨fun s k rest hb ha => ?assertIdle, fun s w rest hb ha => ?command, fun s t hb hstep => ?held,
    fun s rest hb ha => ?release, fun s k rest hb ha => ?assertAgain, fun s rest hb ha => ?releaseIdle,
    fun s op rest hb hwait ha => ?releaseBusy⟩
  case assertIdle =>
    rw [step_of_move (by rw [nextAction_idle hb, moveIdle, ha]), assertReset_idle k (s := { s with agenda := rest }) hb]
  case command => exact step_of_move (by rw [nextAction_inReset hb, moveInReset, ha])
  case held =>
    obtain ⟨u, hmove⟩ := moveInReset_move s
    have hnext := (nextAction_inReset hb).trans hmove
    rw [step_of_move hnext] at hstep
    cases hstep
    have hframe := nextAction_move_frame hnext
    refine ⟨hframe.responses, ?_⟩
    obtain hsame | ⟨hreset, -⟩ | ⟨-, hrelease⟩ := hframe.block
    · exact .inl (hsame.trans hb)
    · exact .inl hreset
    · exact .inr hrelease
  case release =>
    rw [step_of_move (by rw [nextAction_inReset hb, moveInReset, ha]), releaseReset_inReset (s := { s with agenda := rest }) hb]
  case assertAgain =>
    rw [step_of_move (by rw [nextAction_inReset hb, moveInReset, ha]),
      assertReset_inReset k (s := { s with agenda := rest }) hb]
  case releaseIdle =>
    rw [step_of_move (by rw [nextAction_idle hb, moveIdle, ha]),
      releaseReset_of_ne (s := { s with agenda := rest }) (by simp [hb])]
  case releaseBusy =>
    rw [step_of_move (by rw [nextAction_waiting hb hwait, moveBusy, ha]),
      releaseReset_of_ne (s := { s with agenda := rest }) (by simp [hb])]

/-- What an abandoned operation leaves in `TX`: of an encoder the first `k` of its bytes, of a decoder nothing. -/
theorem assertReset_tx_busy {ε : Type} (k : Nat) {s : State.At ε} {op : InFlight} (hb : s.block = .busy op) :
    (∀ e, op = .encode32 e → (assertReset k s).tx = { s.tx with written := s.tx.written ++ e.buf.take k }) ∧
      (∀ e, op = .encode64 e → (assertReset k s).tx = { s.tx with written := s.tx.written ++ e.buf.take k }) ∧
      (∀ d, op = .decode32 d → (assertReset k s).tx = s.tx) ∧ (∀ d, op = .decode64 d → (assertReset k s).tx = s.tx) := by
  cases op <;> simp [assertReset, hb, abandonWrite]

/-- Settles O51: the reset is the host's next move, and takes effect on the operation that waits. -/
theorem resetAbandonsTheOperationInFlight : Obligations.ResetAbandonsTheOperationInFlight := by
  intro s op k rest hb hwait ha
  refine ⟨assertReset k { s with agenda := rest }, step_of_move ?_, assertReset_block _ _, assertReset_agenda _ _,
    assertReset_responses _ _, assertReset_rx _ _, assertReset_tx_busy k (s := { s with agenda := rest }) hb⟩
  rw [nextAction_waiting hb hwait, moveBusy, ha]

/-! ### The channel -/

/-- Between commands, on an idle block and in reset alike, the host makes its next move on the channel. -/
theorem step_between {s t : State} (hb : s.block = .idle ∨ s.block = .inReset) (hidle : moveIdle s = .move t)
    (hreset : moveInReset s = .move t) : step s = .next t := by
  obtain hb | hb := hb
  · exact step_of_move ((nextAction_idle hb).trans hidle)
  · exact step_of_move ((nextAction_inReset hb).trans hreset)

/-- Settles O52: between commands each move is made as it stands; while an operation waits the two that serve are, and the
others wait. -/
theorem hostMovesOnTheChannel : Obligations.HostMovesOnTheChannel := by
  refine ⟨fun s rest hb => ?between, fun s op rest hb hwait => ?waiting, fun s op => step_answered⟩
  case between =>
    exact ⟨fun a ha => step_between hb (by rw [moveIdle, ha]; rfl) (by rw [moveInReset, ha]; rfl),
      fun a ha => step_between hb (by rw [moveIdle, ha]; rfl) (by rw [moveInReset, ha]; rfl),
      fun rx ha => step_between hb (by rw [moveIdle, ha]) (by rw [moveInReset, ha]),
      fun tx ha => step_between hb (by rw [moveIdle, ha]) (by rw [moveInReset, ha]),
      fun e ha => step_between hb (by rw [moveIdle, ha]; rfl) (by rw [moveInReset, ha]; rfl),
      fun ha => step_between hb (by rw [moveIdle, ha]) (by rw [moveInReset, ha])⟩
  case waiting =>
    have hnext := nextAction_waiting hb hwait
    exact ⟨fun a ha => step_of_move (hnext.trans (by rw [moveBusy, ha]; rfl)),
      fun a ha => step_of_move (hnext.trans (by rw [moveBusy, ha]; rfl)),
      fun rx ha => step_waiting_held hb hwait (by rw [moveBusy, ha]),
      fun tx ha => step_waiting_held hb hwait (by rw [moveBusy, ha]),
      fun e ha => step_waiting_held hb hwait (by rw [moveBusy, ha])⟩

end Sys2Proof.Machine
end

section
/-! PROOFS. The wire format bit by bit, and across the widths (41_varint_encode.md section 3, 42_varint_decode.md section 3,
30_encoding.md part 2). -/

namespace Sys2Proof.Machine

/-! ### Bits of bytes and of groups -/

/-- The low seven bits of a number's `i`th group of seven. -/
theorem testBit_group (v i : Nat) {j : Nat} (hj : j < 7) : (v / 128 ^ i % 128).testBit j = v.testBit (7 * i + j) := by
  rw [show 128 = 2 ^ 7 by rfl, Nat.testBit_mod_two_pow, decide_eq_true hj, Bool.true_and, ← pow_mul, Nat.testBit_div_two_pow,
    Nat.add_comm]

/-- The groups of what is written, byte by byte. -/
theorem wireBytes_getD_mod (bound v : Nat) : ∀ i < (wireBytes (bound + 1) v).length,
    ((wireBytes (bound + 1) v).getD i 0).toNat % 128 = v / 128 ^ i % 128 := by
  refine wireBytes_induction (motive := fun b v => ∀ i < (wireBytes b v).length,
    ((wireBytes b v).getD i 0).toNat % 128 = v / 128 ^ i % 128) ?last ?full ?more bound v
  case last =>
    intro b v h i hi
    rw [wireBytes_last h] at hi ⊢
    obtain rfl : i = 0 := by simpa using hi
    rw [List.getD_cons_zero, toNat_ofNat_mod, pow_zero, Nat.div_one, Nat.mod_mod]
  case full =>
    intro v h i hi
    rw [wireBytes_bound h] at hi ⊢
    obtain rfl : i = 0 := by simpa using hi
    rw [List.getD_cons_zero, toNat_ofNat_mod_add, pow_zero, Nat.div_one, Nat.add_mod_right, Nat.mod_mod]
  case more =>
    intro b v h ih i hi
    rw [wireBytes_more h] at hi ⊢
    cases i with
    | zero => rw [List.getD_cons_zero, toNat_ofNat_mod_add, pow_zero, Nat.div_one, Nat.add_mod_right, Nat.mod_mod]
    | succ i => rw [List.getD_cons_succ, ih i (Nat.lt_of_succ_lt_succ hi), pow_succ', Nat.div_div_eq_div_mul]

/-- Every byte says whether another follows; the last one allowed, whether a further one would be needed. -/
theorem continues_wireBytes (bound v : Nat) {i : Nat} (hi : i < (wireBytes (bound + 1) v).length) :
    continues ((wireBytes (bound + 1) v).getD i 0) =
      if i = bound then decide (128 ^ (bound + 1) ≤ v) else decide (i + 1 < (wireBytes (bound + 1) v).length) := by
  obtain ⟨init, last, hbytes, ⟨hl, hmore, hlast⟩, hcont, -⟩ := wireBytes_ends bound v
  rw [hbytes, List.length_append, List.length_singleton] at hi ⊢
  obtain hinit | rfl : i < init.length ∨ i = init.length := by omega
  · rw [List.getD_append _ _ _ _ hinit, if_neg (by omega), decide_eq_true (by omega), List.getD_eq_getElem _ _ hinit]
    exact hmore _ (List.getElem_mem hinit)
  · rw [List.getD_append_right _ _ _ _ le_rfl, Nat.sub_self, List.getD_cons_zero]
    split
    case isTrue hfull =>
      rw [← hfull, Bool.eq_iff_iff, decide_eq_true_iff]
      exact hcont
    case isFalse hshort =>
      rw [decide_eq_false (Nat.lt_irrefl _)]
      exact hlast.resolve_right (by omega)

theorem getLsbD_wireBytes {W : Nat} (x : BitVec W) (bound : Nat) {i j : Nat}
    (hi : i < (wireBytes (bound + 1) x.toNat).length) (hj : j < 7) :
    ((wireBytes (bound + 1) x.toNat).getD i 0).getLsbD j = x.getLsbD (7 * i + j) := by
  rw [← BitVec.testBit_toNat, ← BitVec.testBit_toNat, ← testBit_group _ _ hj, ← wireBytes_getD_mod bound _ i hi,
    show 128 = 2 ^ 7 by rfl, Nat.testBit_mod_two_pow, decide_eq_true hj, Bool.true_and]

theorem getLsbD_63 (x : BitVec 64) : x.getLsbD 63 = decide (2 ^ 63 ≤ x.toNat) :=
  (BitVec.msb_eq_getLsbD_last x).symm.trans (BitVec.msb_eq_decide x)

/-- Settles O20: the low bits of a byte are its group, and its top bit is the loop's test, or bit 63 in the ninth byte. -/
theorem encoderClosedForm : Obligations.EncoderClosedForm := by
  refine ⟨fun x => ⟨_, encodes32_iff.2 rfl, fun i hi => ⟨fun j hj => getLsbD_wireBytes x 4 hi hj, ?top32⟩⟩,
    fun x => ⟨_, encodes64_iff.2 rfl, fun i hi => ⟨fun j hj => getLsbD_wireBytes x 8 hi hj, ?top64⟩⟩⟩
  case top32 =>
    refine (continues_wireBytes 4 x.toNat hi).trans ?_
    split
    case isTrue hfull =>
      have hl : (wireBytes 5 x.toNat).length ≤ 5 := wireBytes_length_le 4 x.toNat
      have hx := x.isLt
      rw [decide_eq_false (by omega), decide_eq_false (by omega)]
    case isFalse => rfl
  case top64 =>
    rw [getLsbD_63]
    exact continues_wireBytes 8 x.toNat hi

/-! ### What a decoder makes of the groups -/

theorem testBit_groups (bs : List Byte) (m : Nat) : (groups bs).testBit m = (bs.getD (m / 7) 0).getLsbD (m % 7) := by
  induction bs generalizing m with
  | nil => simp [groups]
  | cons b bs ih =>
    have hlow : b.toNat % 128 < 2 ^ 7 := Nat.mod_lt _ (by decide)
    rw [groups, Nat.add_comm, show 128 * groups bs = 2 ^ 7 * groups bs by rfl, Nat.testBit_two_pow_mul_add _ hlow]
    split
    case isTrue hm =>
      rw [Nat.div_eq_of_lt hm, Nat.mod_eq_of_lt hm, List.getD_cons_zero, show 128 = 2 ^ 7 by rfl, Nat.testBit_mod_two_pow,
        decide_eq_true hm, Bool.true_and, BitVec.testBit_toNat]
    case isFalse hm =>
      obtain ⟨k, rfl⟩ := Nat.exists_eq_add_of_le' (not_lt.1 hm)
      rw [Nat.add_sub_cancel, Nat.add_div_right k (by decide), Nat.add_mod_right, List.getD_cons_succ, ih]

theorem testBit_value64 (init : List Byte) (last : Byte) {m : Nat} (hm : m < 63) :
    (value64 init last).testBit m = ((init ++ [last]).getD (m / 7) 0).getLsbD (m % 7) := by
  unfold value64
  split
  case isTrue hnine =>
    have hlow : groups init < 2 ^ 56 := (groups_lt init).trans_eq (by rw [hnine]; rfl)
    rw [Nat.add_comm, Nat.testBit_two_pow_mul_add _ hlow]
    split
    case isTrue hinit => rw [List.getD_append _ _ _ _ (by omega), testBit_groups]
    case isFalse hlast =>
      rw [List.getD_append_right _ _ _ _ (by omega), show m / 7 - init.length = 0 by omega, show m % 7 = m - 56 by omega,
        List.getD_cons_zero, BitVec.testBit_toNat]
  case isFalse => exact testBit_groups _ m

/-- Bit 63 comes from the ninth byte, which alone is taken whole. -/
theorem testBit_value64_63 {init : List Byte} (last : Byte) (hl : init.length < 9) :
    (value64 init last).testBit 63 = (decide (init.length = 8) && last.getLsbD 7) := by
  unfold value64
  split
  case isTrue hnine =>
    have hlow : groups init < 2 ^ 56 := (groups_lt init).trans_eq (by rw [hnine]; rfl)
    rw [Nat.add_comm, Nat.testBit_two_pow_mul_add _ hlow, if_neg (by decide), decide_eq_true hnine, Bool.true_and,
      BitVec.testBit_toNat]
  case isFalse hshort =>
    rw [testBit_groups, decide_eq_false hshort, Bool.false_and, List.getD_eq_default _ _ (by simp; omega)]
    rfl

/-- Settles O26: the result is the groups of the bytes taken, and the ninth byte whole. -/
theorem decoderClosedForm : Obligations.DecoderClosedForm := by
  refine ⟨fun init last hends => ⟨_, decodes32_of_ends hends, fun m hm => ?bits32⟩,
    fun init last hends => ⟨_, decodes64_of_ends hends, fun m hm => ?bits64, ?bit63⟩⟩
  case bits32 => rw [BitVec.getLsbD_ofNat, decide_eq_true hm, Bool.true_and, testBit_groups]
  case bits64 => rw [BitVec.getLsbD_ofNat, decide_eq_true (by omega), Bool.true_and, testBit_value64 init last hm]
  case bit63 => rw [BitVec.getLsbD_ofNat, decide_eq_true (by decide), Bool.true_and, testBit_value64_63 last hends.1]

/-- A value whose groups are a multiple of `2^32` is read as 0: the bits above are dropped. -/
theorem decodes32_zero {init : List Byte} {b : Byte} (h : EndsValue 5 init b ∧ groups (init ++ [b]) % 2 ^ 32 = 0) :
    Decodes32 (init ++ [b]) 0 := by
  have hzero : BitVec.ofNat 32 (groups (init ++ [b])) = 0 := by
    rw [← BitVec.toNat_inj, BitVec.toNat_ofNat, h.2]
    rfl
  exact hzero ▸ decodes32_of_ends h.1

/-- Settles O29: the groups of each sequence are 0 or a multiple of `2^32`. -/
theorem decodingIsNotOneToOne : Obligations.DecodingIsNotOneToOne := by
  unfold Obligations.DecodingIsNotOneToOne
  refine ⟨decodes32_zero (init := []) ?_, decodes32_zero (init := [0x80]) ?_, decodes32_zero (init := [0x80, 0x80]) ?_,
    decodes32_zero (init := [0x80, 0x80, 0x80]) ?_, decodes32_zero (init := [0x80, 0x80, 0x80, 0x80]) ?_,
    decodes32_zero (init := [0x80, 0x80, 0x80, 0x80]) ?_, decodes32_zero (init := [0x80, 0x80, 0x80, 0x80]) ?_⟩ <;>
    (unfold EndsValue; decide)

/-! ### Across the widths -/

/-- A tighter bound cuts the bytes off, and changes none that it lets through. -/
theorem take_wireBytes (bound k v : Nat) : (wireBytes (bound + 1 + k) v).take (bound + 1) = wireBytes (bound + 1) v := by
  refine wireBytes_induction (motive := fun b v => (wireBytes (b + k) v).take b = wireBytes b v) ?last ?full ?more bound v
  case last =>
    intro b v h
    rw [Nat.add_right_comm, wireBytes_last h, wireBytes_last h, List.take_succ_cons, List.take_nil]
  case full =>
    intro v h
    cases k with
    | zero => rw [wireBytes_bound h, List.take_succ_cons, List.take_nil]
    | succ k => rw [Nat.add_comm, wireBytes_more h, wireBytes_bound h, List.take_succ_cons, List.take_zero]
  case more =>
    intro b v h ih
    rw [Nat.add_right_comm, wireBytes_more h, wireBytes_more h, List.take_succ_cons, Nat.add_right_comm, ih]

/-- The 32-bit decoder drops the bits of a number at or above `2^32`. -/
theorem decodes32_wireBytes_mod (v : Nat) : Decodes32 (wireBytes 5 v) (BitVec.ofNat 32 v) := by
  obtain ⟨init, last, hbytes, hends, -⟩ := wireBytes_ends 4 v
  have hdec := decodes32_of_ends hends
  have hlow : BitVec.ofNat 32 (v % 128 ^ 5) = BitVec.ofNat 32 v := by
    rw [← BitVec.toNat_inj, BitVec.toNat_ofNat, BitVec.toNat_ofNat, Nat.mod_mod_of_dvd _ (by decide)]
  rwa [← hbytes, groups_wireBytes, hlow] at hdec

theorem wireBytes_nine_eq_five {v : Nat} (hv : v < 2 ^ 32) : wireBytes 9 v = wireBytes 5 v := by
  have hl : (wireBytes 9 v).length ≤ 5 := (wireBytes_length_le_iff (by decide) (by decide)).2 (hv.trans (by decide))
  rw [← take_wireBytes 4 4 v, List.take_of_length_le hl]

/-- Settles O32: the two bounds write the same bytes for a value below `2^32`, and the first five of a longer sequence are the
value's low 35 bits. -/
theorem mixedWidths : Obligations.MixedWidths := by
  refine ⟨fun x => ⟨_, encodes32_iff.2 rfl, ?wider⟩, fun y hy => ⟨_, encodes64_iff.2 rfl, ?narrower⟩,
    fun y hy => ⟨_, encodes64_iff.2 rfl, ?five, ?cut⟩⟩
  case wider =>
    have hdec := decodes64_wireBytes (x.setWidth 64)
    rwa [BitVec.toNat_setWidth_of_le (by decide), wireBytes_nine_eq_five x.isLt] at hdec
  case narrower =>
    have hdec := decodes32_wireBytes_mod y.toNat
    rwa [← wireBytes_nine_eq_five hy, BitVec.ofNat_toNat] at hdec
  case five =>
    by_contra hshort
    have hlt : y.toNat < 2 ^ (7 * 4) :=
      (wireBytes_length_le_iff (by decide) (by decide)).1 (Nat.lt_succ_iff.1 (not_le.1 hshort))
    omega
  case cut =>
    have hdec := decodes32_wireBytes_mod y.toNat
    rwa [← take_wireBytes 4 4 y.toNat, BitVec.ofNat_toNat] at hdec

end Sys2Proof.Machine
end

section
/-! PROOFS. The assembler: a line that fits assembles to the command of the number it writes (30_encoding.md R74). -/

namespace Sys2Proof.Machine

theorem commandOf_op (op : Op) (l : Option Literal) : (commandOf op l).op = op := by cases op <;> rfl

/-! ### The pattern of a literal that fits -/

theorem truncW_toInt {W : Nat} {z : Int} (hz : -(2 ^ W : Int) ≤ z ∧ z < 2 ^ W) : (truncW (W + 1) z).toInt = z := by
  rw [truncW, BitVec.toInt_ofInt]
  apply Int.bmod_eq_of_le_mul_two <;> push_cast <;> rw [pow_succ] <;> omega

theorem truncW_toNat {W : Nat} {z : Int} (hz : 0 ≤ z ∧ z < 2 ^ W) : ((truncW W z).toNat : Int) = z := by
  rw [truncW, BitVec.toNat_ofInt, Int.emod_eq_of_lt hz.1 (by exact_mod_cast hz.2), Int.toNat_of_nonneg hz.1]

theorem operandValue_dec {op : Op} {z : Int} (htakes : op.takesOperand = true) (hfits : (Literal.dec z).fits op = true) :
    operandValue (commandOf op (some (.dec z))) = some z := by
  cases op with
  | zigzagEncode32 => exact congrArg some (truncW_toInt (of_decide_eq_true hfits))
  | zigzagDecode32 => exact congrArg some (truncW_toNat (of_decide_eq_true hfits))
  | zigzagEncode64 => exact congrArg some (truncW_toInt (of_decide_eq_true hfits))
  | zigzagDecode64 => exact congrArg some (truncW_toNat (of_decide_eq_true hfits))
  | varintEncodeUnsigned32 => exact congrArg some (truncW_toNat (of_decide_eq_true hfits))
  | varintDecodeUnsigned32 => cases htakes
  | varintEncodeUnsigned64 => exact congrArg some (truncW_toNat (of_decide_eq_true hfits))
  | varintDecodeUnsigned64 => cases htakes

theorem port_hex32 {p : Nat} (hp : p < 2 ^ 32) : ((BitVec.ofNat 32 p).setWidth 64).toNat = p := by
  rw [BitVec.toNat_setWidth_of_le (by decide), BitVec.toNat_ofNat, Nat.mod_eq_of_lt hp]

theorem port_hex64 {p : Nat} (hp : p < 2 ^ 64) : (BitVec.ofNat 64 p).toNat = p := by
  rw [BitVec.toNat_ofNat, Nat.mod_eq_of_lt hp]

theorem a_hex {op : Op} {p : Nat} (htakes : op.takesOperand = true) (hfits : (Literal.hex p).fits op = true) :
    (commandOf op (some (.hex p))).a.toNat = p := by
  have hp : p < 2 ^ op.width.bits := of_decide_eq_true hfits
  cases op with
  | zigzagEncode32 => exact port_hex32 hp
  | zigzagDecode32 => exact port_hex32 hp
  | zigzagEncode64 => exact port_hex64 hp
  | zigzagDecode64 => exact port_hex64 hp
  | varintEncodeUnsigned32 => exact port_hex32 hp
  | varintDecodeUnsigned32 => cases htakes
  | varintEncodeUnsigned64 => exact port_hex64 hp
  | varintDecodeUnsigned64 => cases htakes

/-- A decoder has no operand, and zeros on the port. -/
theorem commandOf_none {op : Op} (h : op.takesOperand = false) :
    (commandOf op none).a = 0 ∧ operandValue (commandOf op none) = none := by
  cases op <;> cases h <;> exact ⟨rfl, rfl⟩

/-! ### The line -/

theorem wellFormed_some {op : Op} {l : Literal} (h : CommandLine.wellFormed ⟨op, some l⟩ = true) :
    op.takesOperand = true ∧ l.fits op = true := (Bool.and_eq_true _ _).mp h

theorem wellFormed_none {op : Op} (h : CommandLine.wellFormed ⟨op, none⟩ = true) : op.takesOperand = false :=
  (Bool.not_eq_true' _).mp h

/-- Settles O60: the word is that of the line's command, which the decoder reads back, and a literal that fits is its own
pattern's number. -/
theorem assembledLinesMeanWhatTheySay : Obligations.AssembledLinesMeanWhatTheySay := by
  rintro ⟨op, operand⟩
  refine ⟨fun hbad => if_neg (by simp [hbad]), fun hgood => ⟨_, if_pos hgood, ?_⟩⟩
  rw [decode_encode, encode, cmdA_append]
  refine ⟨commandOf_op op operand, fun z hz => ?dec, fun p hp => ?hex, fun hnone => ?none⟩
  case dec =>
    obtain rfl : operand = some (.dec z) := hz
    obtain ⟨htakes, hfits⟩ := wellFormed_some hgood
    exact operandValue_dec htakes hfits
  case hex =>
    obtain rfl : operand = some (.hex p) := hp
    obtain ⟨htakes, hfits⟩ := wellFormed_some hgood
    exact a_hex htakes hfits
  case none =>
    obtain rfl : operand = none := hnone
    exact commandOf_none (wellFormed_none hgood)

end Sys2Proof.Machine
end

section
/-! PROOFS. An operation that waited and is answered goes on as if the answer had been there from the start
(10_state.md section 4), at any profile. -/

namespace Sys2Proof.Machine

variable {ε : Type}

/-! ### Resuming does not look at the block -/

theorem encFinish_await {W : Nat} (pending : EncState W → InFlight) (e : EncState W) (op : InFlight) (s : State.At ε) :
    encFinish pending e (await op s) = encFinish pending e s := by
  unfold encFinish
  rw [await_tx]
  cases memWrite e.buf s.tx <;> rfl

theorem decRun_await {W : Nat} (pending : DecState W → InFlight) (bound : Nat) (last : Byte) (d : DecState W) (op : InFlight)
    (s : State.At ε) : decRun pending bound last d (await op s) = decRun pending bound last d s := by
  unfold decRun
  rw [await_rx]
  cases decLoop bound last (bound - d.i) d s.rx <;> rfl

theorem resume_await (p : Profile) (op op' : InFlight) (s : State.At ε) : resume p op (await op' s) = resume p op s := by
  cases op with
  | encode32 e => exact encFinish_await _ e op' s
  | encode64 e => exact encFinish_await _ e op' s
  | decode32 d => exact decRun_await _ _ _ d op' s
  | decode64 d => exact decRun_await _ _ _ d op' s

@[simp] theorem answered_await (op op' : InFlight) (s : State.At ε) : answered op (await op' s) = answered op s := by
  cases op <;> rfl

theorem stepAt_await {p : Profile} {op : InFlight} {s : State.At ε} (h : answered op s = true) :
    stepAt p (await op s) = .next (resume p op s) := by
  rw [stepAt_of_resume (nextAction_answered rfl ((answered_await op op s).trans h)), resume_await]

/-! ### The bytes a decoder has read -/

/-- A run on a source that supplies bytes that say more follow is the run from after them. -/
theorem decRun_split {W bound : Nat} {pending : DecState W → InFlight} {last : Byte} {init : List Byte} {d : DecState W}
    {s : State.At ε} {mid : Source ε} (hsup : Supplies s.rx init mid) (hmore : ∀ b ∈ init, continues b = true)
    (hl : d.i + init.length < bound) :
    decRun pending bound last d s = decRun pending bound last (d.after bound last init) { s with rx := mid } := by
  rw [decRun, decRun, DecState.after_i, show bound - d.i = bound - (d.i + init.length) + init.length by omega,
    decLoop_more hsup hmore hl]

/-- A script of bytes and nothing after them supplies them and falls silent. -/
theorem supplies_script (bs : List Byte) :
    Supplies ({ answers := bs.map .byte, after := none } : Source ε) bs { answers := [], after := none } := by
  simpa using supplies_bytes bs ([] : List (RxAnswer ε)) none

/-- Before a silent source fell silent its script held the bytes it supplied, and nothing else. -/
theorem eq_of_supplies_silent {init : List Byte} {rx mid : Source ε} (hsup : Supplies rx init mid)
    (hsilent : SourceSilent mid) :
    rx = { answers := init.map .byte, after := none } ∧ mid = { answers := [], after := none } := by
  induction init generalizing rx with
  | nil =>
    obtain rfl : mid = rx := hsup
    obtain ⟨answers, after⟩ := mid
    obtain ⟨rfl, rfl⟩ := hsilent
    exact ⟨rfl, rfl⟩
  | cons b init ih =>
    obtain ⟨next, hgives, hrest⟩ := hsup
    obtain ⟨hnext, hmid⟩ := ih hrest
    refine ⟨?_, hmid⟩
    obtain ⟨answers, after⟩ := rx
    obtain ⟨as, rfl, rfl⟩ | ⟨-, hafter, rfl⟩ := hgives
    · cases hnext
      rfl
    · cases hnext
      cases hafter

/-- A source that has an answer ahead will answer. -/
theorem source_answering {answers : List (RxAnswer ε)} {after : Option (RxAnswer ε)} (h : answers ≠ [] ∨ after ≠ none) :
    Source.answering { answers := answers, after := after } = true := by
  rw [← Bool.not_eq_false, Source.answering_eq_false_iff]
  exact fun hsilent => h.elim (· hsilent.1) (· hsilent.2)

theorem sink_answering {written : List Byte} {answers : List (TxAnswer ε)} {after : Option (TxAnswer ε)}
    (h : answers ≠ [] ∨ after ≠ none) :
    Sink.answering { written := written, answers := answers, after := after } = true := by
  rw [← Bool.not_eq_false, Sink.answering_eq_false_iff]
  exact fun hsilent => h.elim (· hsilent.1) (· hsilent.2)

/-! ### The two decoders at a profile -/

/-- The command `i` begins a decoder bounded at `bound` bytes, with the mask `last` for the last of them, which waits as
`pending` says. -/
structure DecoderAt (p : Profile) (i : Instr) {W : Nat} (pending : DecState W → InFlight) (bound : Nat) (last : Byte) :
    Prop where
  begun : begins p i = some (pending (DecState.start W))
  resumed : ∀ (d : DecState W) (s : State), resume p (pending d) s = decRun pending bound last d s
  awaits : ∀ (d : DecState W) (s : State), answered (pending d) s = s.rx.answering
  abandoned : ∀ (k : Nat) (d : DecState W) (s : State), assertReset k (await (pending d) s) = { s with block := .inReset }

theorem decoder32At (p : Profile) : DecoderAt p .varintDecodeUnsigned32 .decode32 5 0x7F where
  begun := rfl
  resumed _ _ := rfl
  awaits _ _ := rfl
  abandoned _ _ _ := rfl

theorem decoder64At (p : Profile) : DecoderAt p .varintDecodeUnsigned64 .decode64 p.maxB64 p.lastMask64 where
  begun := rfl
  resumed _ _ := rfl
  awaits _ _ := rfl
  abandoned _ _ _ := rfl

section
variable {p : Profile} {i : Instr} {W bound : Nat} {pending : DecState W → InFlight} {last : Byte} {s t : State}
  (h : DecoderAt p i pending bound last) (hs : s.block = .idle)
include h hs

theorem DecoderAt.execAt_eq : execAt p i s = .next (decRun pending bound last (DecState.start W) s) := by
  rw [execAt_of_begins hs h.begun, h.resumed]

/-- A decoder that waits has read bytes that say more follow, and its source is silent. -/
theorem DecoderAt.waiting {op : InFlight} (hpos : 0 < bound) (hexec : execAt p i s = .next t) (hb : t.block = .busy op) :
    ∃ init mid, Supplies s.rx init mid ∧ init.length < bound ∧ (∀ b ∈ init, continues b = true) ∧ SourceSilent mid ∧
      t = await (pending ((DecState.start W).after bound last init)) { s with rx := mid } := by
  rw [h.execAt_eq hs] at hexec
  obtain rfl := Host.Outcome.next.inj hexec
  obtain ⟨_, _, _, -, -, hrun⟩ | ⟨_, _, _, _, -, -, -, -, hrun⟩ | ⟨init, mid, hsup, hl, hmore, hsilent, hrun⟩ :=
    decRun_cases pending last (d := DecState.start W) s hpos
  · rw [hrun] at hb
    cases hb
  · rw [hrun] at hb
    cases hb
  · exact ⟨init, mid, hsup, by rwa [start_i, Nat.zero_add] at hl, hmore, hsilent, hrun⟩

end

/-- A decoder that waits after the bytes `init` and is then answered does what it would have done with the answers there from
the start. -/
theorem DecoderAt.split {p : Profile} {i : Instr} {W bound : Nat} {pending : DecState W → InFlight} {last : Byte} {s : State}
    {init : List Byte} {answers : List (RxAnswer Err)} {after : Option (RxAnswer Err)}
    (h : DecoderAt p i pending bound last) (hs : s.block = .idle) (hl : init.length < bound)
    (hmore : ∀ b ∈ init, continues b = true) (hahead : answers ≠ [] ∨ after ≠ none) :
    stepAt p (await (pending ((DecState.start W).after bound last init))
        { s with rx := { answers := answers, after := after } }) =
      execAt p i { s with rx := { answers := init.map .byte ++ answers, after := after } } := by
  have hsup : Supplies { answers := init.map .byte ++ answers, after := after } init { answers := answers, after := after } :=
    supplies_bytes init answers after
  rw [stepAt_await ((h.awaits _ _).trans (source_answering hahead)), h.resumed,
    h.execAt_eq (s := { s with rx := { answers := init.map .byte ++ answers, after := after } }) hs,
    decRun_split (s := { s with rx := { answers := init.map .byte ++ answers, after := after } }) hsup hmore
      (by rwa [start_i, Nat.zero_add])]

/-! ### The two encoders at a profile -/

/-- The command `i` begins an encoder that comes to its one write with `e`, and waits for it as `pending` says. -/
structure EncoderAt (p : Profile) (i : Instr) {W : Nat} (pending : EncState W → InFlight) (e : EncState W) : Prop where
  begun : begins p i = some (pending e)
  resumed : ∀ s : State, resume p (pending e) s = encFinish pending e s
  awaits : ∀ s : State, answered (pending e) s = s.tx.answering

theorem encoder32At (p : Profile) (x : BitVec 32) :
    EncoderAt p (.varintEncodeUnsigned32 x) .encode32 (encForm (maxB p .w32) x) where
  begun := rfl
  resumed _ := rfl
  awaits _ := rfl

theorem encoder64At (p : Profile) (x : BitVec 64) :
    EncoderAt p (.varintEncodeUnsigned64 x) .encode64 (encForm (maxB p .w64) x) where
  begun := rfl
  resumed _ := rfl
  awaits _ := rfl

section
variable {p : Profile} {i : Instr} {W : Nat} {pending : EncState W → InFlight} {e : EncState W} {s : State}
  (h : EncoderAt p i pending e) (hs : s.block = .idle)
include h hs

theorem EncoderAt.execAt_eq : execAt p i s = .next (encFinish pending e s) := by rw [execAt_of_begins hs h.begun, h.resumed]

theorem EncoderAt.waiting (hsilent : SinkSilent s.tx) : execAt p i s = .next (await (pending e) s) := by
  rw [h.execAt_eq hs, encFinish_silent hsilent]

/-- An encoder that waits for its write and is then answered does what it would have done with the answer there from the
start. -/
theorem EncoderAt.split (hahead : s.tx.answering = true) : stepAt p (await (pending e) s) = execAt p i s := by
  rw [stepAt_await ((h.awaits s).trans hahead), h.resumed, h.execAt_eq hs]

end

end Sys2Proof.Machine
end

section
/-! PROOFS. The two rejected profiles: the 64-bit commands at another argument of the machine (00_scope.md R8). -/

namespace Sys2Proof.Machine

theorem encodesAt_wireBytes {p : Profile} {bound : Nat} (hp : p.maxB64 = bound + 1) (y : BitVec 64) :
    EncodesAt p y (wireBytes (bound + 1) y.toNat) := by
  intro s tx hs hg
  obtain ⟨hbuf, hcount, -⟩ := encForm_spec bound y
  rw [← hp] at hbuf hcount
  rw [execAt_of_begins hs rfl, resume, maxB, encFinish_done (hbuf.symm ▸ hp ▸ hg), hcount, hp, respondOk,
    respond_idle (s := { s with tx := tx }) hs, toCount]

/-- Where the last mask drops bit 7, a decoder answers the groups of the bytes. -/
theorem decodesAt_groups {p : Profile} (hp : p.lastMask64 = 0x7F) {init : List Byte} {b : Byte}
    (hends : EndsValue p.maxB64 init b) : DecodesAt p (init ++ [b]) (BitVec.ofNat 64 (groups (init ++ [b]))) := by
  intro s rx hs hsup
  obtain ⟨hl, hmore, hlast⟩ := hends
  have hacc : ((DecState.start 64).after p.maxB64 0x7F (init ++ [b])).acc = BitVec.ofNat 64 (groups (init ++ [b])) := by
    rw [← BitVec.toNat_inj, DecState.after_acc (start_lt 64) (by simpa using hl), start_i, maskedGroups_low7]
    simp [DecState.start]
  rw [(decoder64At p).execAt_eq hs, hp, decRun_value hsup hmore (by rwa [start_i, Nat.zero_add])
    (by rwa [start_i, Nat.zero_add]), hacc, toPort_of_port, respondOk, respond_idle (s := { s with rx := rx }) hs]

/-- A decoder that answers a value's bytes answers them also where they come late. -/
theorem DecodesAt.late {p : Profile} {bs init : List Byte} {b : Byte} {x : BitVec 64} (hdec : DecodesAt p bs x)
    (hbs : bs = init ++ [b]) (hends : EndsValue p.maxB64 init b) : DecodesLateAt p bs x := by
  rintro s early rest hs rfl hrest
  obtain ⟨hl, hmore, -⟩ := hends
  obtain ⟨late, c, rfl⟩ := List.eq_nil_or_concat' rest |>.resolve_left hrest
  rw [← List.append_assoc] at hbs
  obtain ⟨rfl, -⟩ := List.append_inj' hbs rfl
  have hearly : early.length < p.maxB64 := by
    rw [List.length_append] at hl
    omega
  have hmore' : ∀ x ∈ early, continues x = true := fun x hx => hmore x (List.mem_append_left _ hx)
  refine ⟨await (.decode64 ((DecState.start 64).after p.maxB64 p.lastMask64 early))
    { s with rx := { answers := [], after := none } }, _, ?waits, rfl, rfl, ?answers⟩
  case waits =>
    rw [(decoder64At p).execAt_eq (s := { s with rx := { answers := early.map .byte, after := none } }) hs,
      decRun_waiting (s := { s with rx := { answers := early.map .byte, after := none } }) (supplies_script early) hmore'
        (by rwa [start_i, Nat.zero_add]) ⟨rfl, rfl⟩]
  case answers =>
    refine ((decoder64At p).split hs hearly hmore' (answers := (late ++ [c]).map .byte) (.inl (by simp))).trans ?_
    rw [← List.map_append]
    exact hdec { s with rx := { answers := (early ++ (late ++ [c])).map .byte, after := none } } _ hs (supplies_script _)

/-- At a profile whose last mask drops bit 7, what comes back of a value is its bits below seven for each byte allowed. -/
theorem decodesAt_wireBytes {p : Profile} {bound : Nat} (hp : p.maxB64 = bound + 1) (hmask : p.lastMask64 = 0x7F) (v : Nat) :
    DecodesAt p (wireBytes (bound + 1) v) (BitVec.ofNat 64 (v % 128 ^ (bound + 1))) ∧
      DecodesLateAt p (wireBytes (bound + 1) v) (BitVec.ofNat 64 (v % 128 ^ (bound + 1))) := by
  obtain ⟨init, last, hbytes, hends, -⟩ := wireBytes_ends bound v
  rw [← hp] at hends
  have hdec := decodesAt_groups hmask hends
  rw [← hbytes, groups_wireBytes] at hdec
  exact ⟨hdec, hdec.late hbytes hends⟩

/-- A decoder answers one value: any source that supplies the bytes shows it. -/
theorem DecodesAt.unique {p : Profile} {bs : List Byte} {x y : BitVec 64} (hx : DecodesAt p bs x) (hy : DecodesAt p bs y) :
    x = y := by
  have hnext := (hx { State.reset with rx := { answers := bs.map .byte, after := none } } _ rfl (supplies_script bs)).symm.trans
    (hy _ _ rfl (supplies_script bs))
  simpa using hnext

/-- Settles O33: nine groups of seven bits leave out bit 63 alone. -/
theorem literalProfileLosesBit63 : Obligations.LiteralProfileLosesBit63 := by
  intro y
  have hdec := decodesAt_wireBytes (p := .pLiteral) (bound := 8) rfl rfl y.toNat
  refine ⟨_, encodesAt_wireBytes (bound := 8) rfl y, fun hy => ?below, fun hy => ?above⟩
  case below =>
    rwa [Nat.mod_eq_of_lt (hy.trans_eq (by decide)), BitVec.ofNat_toNat, BitVec.setWidth_eq] at hdec
  case above =>
    have hlost : BitVec.ofNat 64 (y.toNat % 128 ^ (8 + 1)) = y - 0x8000000000000000 := by
      bv_omega
    rw [hlost] at hdec
    refine ⟨fun hback => ?_, hdec⟩
    have := hdec.1.unique hback
    bv_omega

/-- Settles O34: ten groups of seven bits hold any value, and the tenth is needed exactly for bit 63. -/
theorem formulaProfileTakesTenBytes : Obligations.FormulaProfileTakesTenBytes := by
  intro y
  have hdec := decodesAt_wireBytes (p := .pFormula) (bound := 9) rfl rfl y.toNat
  rw [Nat.mod_eq_of_lt (y.isLt.trans (by decide)), BitVec.ofNat_toNat, BitVec.setWidth_eq] at hdec
  refine ⟨_, encodesAt_wireBytes (bound := 9) rfl y, hdec.1, hdec.2, ?_⟩
  change (wireBytes 10 y.toNat).length = 10 ↔ _
  have hl : (wireBytes 10 y.toNat).length ≤ 10 := wireBytes_length_le 9 y.toNat
  have hnine : (wireBytes 10 y.toNat).length ≤ 9 ↔ y.toNat < 2 ^ (7 * 9) := wireBytes_length_le_iff (by decide) (by decide)
  omega

end Sys2Proof.Machine
end

section
/-! PROOFS. A pair of commands whose host waits: answers that the host serves while it waits come to what they come to when
given from the start (43_signed_composition.md, 70_reset_and_hazards.md section 7). -/

namespace Sys2Proof.Machine

/-! ### The host's waiting, move by move -/

section
variable {p : Profile} {fuel : Nat} {op : InFlight} {s : State}

/-- While an operation waits the host makes its next move. -/
theorem waitIdle_move {t : State} (ha : answered op s = false) (hmove : moveBusy (await op s) = .move t) :
    waitIdle p (fuel + 1) (await op s) = waitIdle p fuel t :=
  waitIdle_succ p fuel (by simp)
    (stepAt_of_move ((nextAction_waiting rfl ((answered_await op op s).trans ha)).trans hmove))

theorem waitIdle_serveRx {a : RxAnswer Err} {rest : List (HostMove Err)} (ha : answered op s = false)
    (hagenda : s.agenda = .serveRx a :: rest) : waitIdle p (fuel + 1) (await op s) =
      waitIdle p fuel (await op { s with rx := { s.rx with answers := s.rx.answers ++ [a] }, agenda := rest }) :=
  waitIdle_move ha (by rw [moveBusy, await_agenda, hagenda]; rfl)

theorem waitIdle_serveTx {a : TxAnswer Err} {rest : List (HostMove Err)} (ha : answered op s = false)
    (hagenda : s.agenda = .serveTx a :: rest) : waitIdle p (fuel + 1) (await op s) =
      waitIdle p fuel (await op { s with tx := { s.tx with answers := s.tx.answers ++ [a] }, agenda := rest }) :=
  waitIdle_move ha (by rw [moveBusy, await_agenda, hagenda]; rfl)

theorem waitIdle_assertReset {k : Nat} {rest : List (HostMove Err)} (ha : answered op s = false)
    (hagenda : s.agenda = .assertReset k :: rest) : waitIdle p (fuel + 1) (await op s) =
      waitIdle p fuel (assertReset k (await op { s with agenda := rest })) :=
  waitIdle_move ha (by rw [moveBusy, await_agenda, hagenda]; rfl)

theorem waitIdle_releaseReset {rest : List (HostMove Err)} (hb : s.block = .inReset)
    (hagenda : s.agenda = .releaseReset :: rest) :
    waitIdle p (fuel + 1) s = .next { s with block := .idle, agenda := rest } := by
  have hstep : stepAt p s = .next { s with block := .idle, agenda := rest } := by
    rw [stepAt_of_move (by rw [nextAction_inReset hb, moveInReset, hagenda]),
      releaseReset_inReset (s := { s with agenda := rest }) hb]
  rw [waitIdle_succ p fuel (by simp [hb]) hstep, waitIdle_idle p fuel rfl]

theorem hostWait_of_not_answered (ha : answered op s = false) (hagenda : s.agenda = []) :
    hostWait p (await op s) = .next (await op s) := by
  refine waitIdle_stays p _ (stepAt_of_move ?_)
  rw [nextAction_waiting rfl ((answered_await op op s).trans ha), moveBusy, await_agenda, hagenda]

theorem waitIdle_answered (ha : answered op s = true) :
    waitIdle p (fuel + 1) (await op s) = waitIdle p fuel (resume p op s) :=
  waitIdle_succ p fuel (by simp) (stepAt_await ha)

end

/-! ### A read pair served while it waits -/

/-- A decoder that may yet read and has an answer ahead responds to it or goes on, whatever comes after. -/
theorem decRun_answer {W bound : Nat} {pending : DecState W → InFlight} {last : Byte} {d : DecState W} (hd : d.i < bound)
    (a : RxAnswer Err) :
    (∃ x, ∀ (s : State) (as : List (RxAnswer Err)),
        decRun pending bound last d { s with rx := { answers := a :: as, after := none } } =
          respond x { s with rx := { answers := as, after := none } }) ∨
      (∃ d', d'.i < bound ∧ ∀ (s : State) (as : List (RxAnswer Err)),
        decRun pending bound last d { s with rx := { answers := a :: as, after := none } } =
          decRun pending bound last d' { s with rx := { answers := as, after := none } }) := by
  cases a with
  | fail e =>
    refine .inl ⟨.fail e, fun s as => ?_⟩
    rw [decRun_step pending _ hd]
    rfl
  | byte b =>
    by_cases hends : continues b = false ∨ d.i + 1 = bound
    · refine .inl ⟨.ok (toPort (decTake bound last b d).acc) 0, fun s as => ?_⟩
      rw [decRun_step pending _ hd]
      exact if_pos hends
    · refine .inr ⟨{ decTake bound last b d with i := d.i + 1 }, show d.i + 1 < bound by omega, fun s as => ?_⟩
      rw [decRun_step pending _ hd]
      exact if_neg hends

section
variable {p : Profile} {i : Instr} {W bound : Nat} {pending : DecState W → InFlight} {last : Byte}
  (h : DecoderAt p i pending bound last)
include h

/-- A decoder whose host serves the answers `later` while it waits comes to what it comes to with all of them ahead, if it
takes all of them. -/
theorem DecoderAt.waitIdle_served (later : List (RxAnswer Err)) (rest : List (HostMove Err)) (s u : State)
    (hu : u.block = .idle) (htaken : u.rx.answers = []) : ∀ (fuel : Nat) (given : List (RxAnswer Err)) (d : DecState W),
    2 * later.length ≤ fuel → d.i < bound →
    decRun pending bound last d { s with rx := { answers := given ++ later, after := none }, agenda := rest } = u →
    waitIdle p fuel (decRun pending bound last d
      { s with rx := { answers := given, after := none }, agenda := later.map .serveRx ++ rest }) = .next u := by
  induction later with
  | nil =>
    intro fuel given d _ _ hrun
    rw [List.append_nil] at hrun
    rw [List.map_nil, List.nil_append, hrun]
    exact waitIdle_idle p fuel hu
  | cons a later ih =>
    intro fuel given d hfuel hd hrun
    rw [List.length_cons] at hfuel
    obtain ⟨fuel, rfl⟩ : ∃ n, fuel = n + 2 := Nat.exists_eq_add_of_le' (by omega)
    induction given generalizing d with
    | nil =>
      have hsilent : SourceSilent ({ answers := [], after := none } : Source Err) := ⟨rfl, rfl⟩
      rw [decRun_waiting (init := []) rfl (by simp) hd hsilent,
        waitIdle_serveRx ((h.awaits _ _).trans (Source.answering_eq_false_iff.2 hsilent)) rfl,
        waitIdle_answered ((h.awaits _ _).trans (source_answering (.inl (by simp)))), h.resumed]
      exact ih fuel [a] d (by omega) hd hrun
    | cons b given ihgiven =>
      obtain ⟨x, hresponds⟩ | ⟨d', hd', hmore⟩ := decRun_answer (pending := pending) (last := last) hd b
      · rw [List.cons_append, hresponds { s with agenda := rest }] at hrun
        subst hrun
        simp at htaken
      · rw [List.cons_append, hmore { s with agenda := rest }] at hrun
        rw [hmore { s with agenda := (a :: later).map .serveRx ++ rest }]
        exact ihgiven d' hd' hrun

theorem DecoderAt.issueAndWait_served {given later : List (RxAnswer Err)} {rest : List (HostMove Err)} {s u : State}
    (hpos : 0 < bound) (hs : s.block = .idle)
    (hexec : execAt p i { s with rx := { answers := given ++ later, after := none }, agenda := rest } = .next u)
    (hu : u.block = .idle) (htaken : u.rx.answers = []) :
    issueAndWait p i { s with rx := { answers := given, after := none }, agenda := later.map .serveRx ++ rest } = .next u := by
  rw [h.execAt_eq (s := { s with rx := { answers := given ++ later, after := none }, agenda := rest }) hs] at hexec
  rw [issueAndWait, h.execAt_eq (s := { s with rx := _, agenda := later.map .serveRx ++ rest }) hs, onNext_next, hostWait]
  refine h.waitIdle_served later rest s u hu htaken _ given _ ?_ hpos (Host.Outcome.next.inj hexec)
  rw [(decRun_progress _ _ h.awaits).agenda_eq, List.length_append, List.length_map]
  omega

end

/-- Pairs begun on two idle states come to the same if their first commands do and the host has had as many responses. -/
theorem pair_congr {p : Profile} {first : Instr} {second : Port → Instr} {s s' t : State} (hs : s.block = .idle)
    (hs' : s'.block = .idle) (hfirst : issueAndWait p first s = .next t) (hfirst' : issueAndWait p first s' = .next t)
    (hresponses : s.responses = s'.responses) : pair p first second s = pair p first second s' := by
  rw [pair_idle p hs hfirst, pair_idle p hs' hfirst', hresponses]

/-- A pair whose first command has given no response ends there. -/
theorem pair_of_no_response {p : Profile} {first : Instr} {second : Port → Instr} {s t : State} (hs : s.block = .idle)
    (hfirst : issueAndWait p first s = .next t) (hresponses : t.responses = s.responses) :
    pair p first second s = .next t := by
  rw [pair_idle p hs hfirst, hresponses, List.getElem?_eq_none le_rfl]

section
variable {i : Instr} {W bound : Nat} {pending : DecState W → InFlight} {last : Byte}
  (h : DecoderAt profile i pending bound last) (hpos : 0 < bound) {second : Port → Instr} {s : State} (hs : s.block = .idle)
include h hpos hs

/-- Answers served while a read pair waits are as good as answers given from the start. -/
theorem DecoderAt.pair_served {u : State} {given later : List (RxAnswer Err)} {rest : List (HostMove Err)}
    (hexec : exec i { s with rx := { answers := given ++ later, after := none }, agenda := rest } = .next u)
    (hu : u.block = .idle) (htaken : u.rx.answers = []) :
    pair profile i second { s with rx := { answers := given, after := none }, agenda := later.map .serveRx ++ rest } =
      pair profile i second { s with rx := { answers := given ++ later, after := none }, agenda := rest } := by
  refine pair_congr hs hs (t := u) ?_ (issueAndWait_idle hexec hu) rfl
  exact h.issueAndWait_served hpos hs ((execAt_profile _ _).trans hexec) hu htaken

/-- A decoder that is never answered, or is abandoned by a reset, ends its pair. -/
theorem DecoderAt.pair_unanswered {t : State} {op : InFlight} (hexec : exec i s = .next t) (hb : t.block = .busy op) :
    (s.agenda = [] → pair profile i second s = .next t) ∧
      ∀ k rest, s.agenda = .assertReset k :: .releaseReset :: rest →
        pair profile i second s = .next { t with block := .idle, agenda := rest } := by
  rw [← execAt_profile] at hexec
  obtain ⟨init, mid, -, -, -, hsilent, rfl⟩ := h.waiting hs hpos hexec hb
  have hunanswered (r : List (HostMove Err)) :
      answered (pending ((DecState.start W).after bound last init)) { s with rx := mid, agenda := r } = false :=
    (h.awaits _ _).trans (Source.answering_eq_false_iff.2 hsilent)
  refine ⟨fun hagenda => pair_of_no_response hs ?_ rfl, fun k rest hagenda => pair_of_no_response hs ?_ rfl⟩
  · rw [issueAndWait, hexec, onNext_next, hostWait_of_not_answered (hunanswered s.agenda) hagenda]
  · rw [issueAndWait, hexec, onNext_next, hostWait, await_agenda, hagenda, waitIdle_assertReset (hunanswered _) rfl,
      h.abandoned]
    exact waitIdle_releaseReset rfl rfl

end

/-! ### A write pair served while it waits -/

/-- A write that is answered ends the encoder. -/
theorem encFinish_idle {W : Nat} {pending : EncState W → InFlight} {e : EncState W} {s : State}
    (hahead : s.tx.answering = true) : (encFinish pending e s).block = .idle := by
  obtain ⟨tx, -, hrun⟩ | ⟨k, err, tx, -, hrun⟩ | ⟨hsilent, -⟩ := encFinish_cases pending e s
  · rw [hrun]
    rfl
  · rw [hrun]
    rfl
  · rw [Sink.answering_eq_false_iff.2 hsilent] at hahead
    cases hahead

section
variable {p : Profile} {i : Instr} {W : Nat} {pending : EncState W → InFlight} {e : EncState W} {s : State}
  (h : EncoderAt p i pending e) (hs : s.block = .idle)
include h hs

theorem EncoderAt.issueAndWait_answered (hahead : s.tx.answering = true) :
    issueAndWait p i s = .next (encFinish pending e s) := by
  rw [issueAndWait, h.execAt_eq hs, onNext_next, hostWait_idle p (encFinish_idle hahead)]

/-- An encoder whose host serves the answer of its write while it waits comes to what it comes to with the answer ahead. -/
theorem EncoderAt.issueAndWait_served {a : TxAnswer Err} {rest : List (HostMove Err)} (hsilent : SinkSilent s.tx)
    (hagenda : s.agenda = .serveTx a :: rest) : issueAndWait p i s =
      issueAndWait p i { s with tx := { s.tx with answers := s.tx.answers ++ [a] }, agenda := rest } := by
  have hahead : Sink.answering { s.tx with answers := s.tx.answers ++ [a] } = true := sink_answering (.inl (by simp))
  rw [h.issueAndWait_answered (s := { s with tx := { s.tx with answers := s.tx.answers ++ [a] }, agenda := rest }) hs hahead,
    issueAndWait, h.waiting hs hsilent, onNext_next, hostWait, await_agenda, hagenda, List.length_cons, Nat.mul_succ,
    waitIdle_serveTx ((h.awaits s).trans (Sink.answering_eq_false_iff.2 hsilent)) hagenda,
    waitIdle_answered ((h.awaits _).trans hahead), h.resumed, waitIdle_idle p _ (encFinish_idle hahead)]

end

/-- A pair whose first command is pure is its second, issued with the result. -/
theorem pair_of_pure {i : Instr} {second : Port → Instr} {r : Port} {s : State} (hs : s.block = .idle)
    (hfirst : exec i s = .next { s with responses := s.responses ++ [.ok r 0] }) : pair profile i second s =
      issueAndWait profile (second r) { s with responses := s.responses ++ [.ok r 0] } := by
  rw [pair_idle profile hs (issueAndWait_idle hfirst hs), List.getElem?_concat_length]

/-- An answer served while a write pair waits is as good as an answer given from the start. -/
theorem EncoderAt.pair_served {i : Instr} {second : Port → Instr} {r : Port} {W : Nat} {pending : EncState W → InFlight}
    {e : EncState W} {s : State} {w : List Byte} {a : TxAnswer Err} {rest : List (HostMove Err)}
    (h : EncoderAt profile (second r) pending e) (hs : s.block = .idle)
    (hfirst : ∀ {s : State}, s.block = .idle → exec i s = .next { s with responses := s.responses ++ [.ok r 0] }) :
    pair profile i second { s with tx := { written := w, answers := [], after := none }, agenda := .serveTx a :: rest } =
      pair profile i second { s with tx := { written := w, answers := [a], after := none }, agenda := rest } := by
  have hleft := pair_of_pure (second := second)
    (s := { s with tx := { written := w, answers := [], after := none }, agenda := .serveTx a :: rest }) hs (hfirst hs)
  have hright := pair_of_pure (second := second)
    (s := { s with tx := { written := w, answers := [a], after := none }, agenda := rest }) hs (hfirst hs)
  rw [hleft, hright]
  exact h.issueAndWait_served (s := { s with
    tx := { written := w, answers := [], after := none }
    agenda := .serveTx a :: rest
    responses := s.responses ++ [.ok r 0] }) hs ⟨rfl, rfl⟩ rfl

/-! ### The obligation -/

theorem decoderAt_of_begins {i : Instr} {op : InFlight} (hdir : i.op.direction = .decode) (h : begins profile i = some op) :
    ∃ (W : Nat) (pending : DecState W → InFlight) (bound : Nat) (last : Byte), 0 < bound ∧
      DecoderAt profile i pending bound last := by
  cases i <;> cases hdir <;> cases h
  case varintDecodeUnsigned32 => exact ⟨32, .decode32, 5, 0x7F, by decide, decoder32At profile⟩
  case varintDecodeUnsigned64 => exact ⟨64, .decode64, 9, 0xFF, by decide, decoder64At profile⟩

theorem encoderAt_of_begins {i : Instr} {op : InFlight} (hdir : i.op.direction = .encode) (h : begins profile i = some op) :
    ∃ (W : Nat) (pending : EncState W → InFlight) (e : EncState W), EncoderAt profile i pending e := by
  cases i <;> cases hdir <;> cases h
  case varintEncodeUnsigned32 x => exact ⟨32, .encode32, _, encoder32At profile x⟩
  case varintEncodeUnsigned64 x => exact ⟨64, .encode64, _, encoder64At profile x⟩

/-- Only an operation that was begun can wait. -/
theorem exists_begins_of_busy {i : Instr} {s t : State} {op : InFlight} (hs : s.block = .idle) (hexec : exec i s = .next t)
    (hb : t.block = .busy op) : ∃ op', begins profile i = some op' := by
  cases hbegins : begins profile i with
  | some op' => exact ⟨op', rfl⟩
  | none =>
    obtain ⟨r, rfl⟩ := exec_pure_cases hs hexec hbegins
    cases hb

/-- Settles O49: an operation that is answered goes on from where it waited, and the host of a pair only makes it wait. -/
theorem waitingChangesNoResult : Obligations.WaitingChangesNoResult := by
  refine ⟨fun i s t op as bs after hs hdir hahead hexec hb => ?decoder,
    fun i s t op w bs after hs hdir hahead hexec hb => ?encoder,
    List.forall_mem_cons.2 ⟨⟨fun s u as bs rest hs hexec hu htaken => ?served32, fun s t op hs hexec hb => ?unanswered32⟩,
      List.forall_mem_singleton.2 ⟨fun s u as bs rest hs hexec hu htaken => ?served64,
        fun s t op hs hexec hb => ?unanswered64⟩⟩,
    fun x s w a rest hs => ?write32, fun x s w a rest hs => ?write64⟩
  case decoder =>
    obtain ⟨op', hbegins⟩ := exists_begins_of_busy (s := { s with rx := { answers := as, after := none } }) hs hexec hb
    obtain ⟨W, pending, bound, last, hpos, hdecoder⟩ := decoderAt_of_begins hdir hbegins
    rw [← execAt_profile] at hexec
    obtain ⟨init, mid, hsup, hl, hmore, hsilent, rfl⟩ :=
      hdecoder.waiting (s := { s with rx := { answers := as, after := none } }) hs hpos hexec hb
    obtain ⟨hscript, -⟩ := eq_of_supplies_silent hsup hsilent
    cases hscript
    rw [← stepAt_profile, ← execAt_profile]
    exact hdecoder.split hs hl hmore hahead
  case encoder =>
    obtain ⟨op', hbegins⟩ :=
      exists_begins_of_busy (s := { s with tx := { written := w, answers := [], after := none } }) hs hexec hb
    obtain ⟨W, pending, e, hencoder⟩ := encoderAt_of_begins hdir hbegins
    have hwaits := hencoder.waiting (s := { s with tx := { written := w, answers := [], after := none } }) hs ⟨rfl, rfl⟩
    rw [← execAt_profile] at hexec
    obtain rfl := Host.Outcome.next.inj (hwaits.symm.trans hexec)
    rw [← stepAt_profile, ← execAt_profile]
    exact hencoder.split (s := { s with tx := { written := w, answers := bs, after := after } }) hs (sink_answering hahead)
  case served32 => exact (decoder32At profile).pair_served (by decide) hs hexec hu htaken
  case unanswered32 => exact (decoder32At profile).pair_unanswered (by decide) hs hexec hb
  case served64 => exact (decoder64At profile).pair_served (by decide) hs hexec hu htaken
  case unanswered64 => exact (decoder64At profile).pair_unanswered (by decide) hs hexec hb
  case write32 => exact (encoder32At profile _).pair_served hs (exec_zigzagEncode32_frame · x)
  case write64 => exact (encoder64At profile _).pair_served hs (exec_zigzagEncode64_frame · x)

end Sys2Proof.Machine
end

section
/-! PROOFS. Renaming the failure values commutes with every command and every step (60_exceptions.md section 1). -/

namespace Sys2Proof.Machine

variable {ε ε' : Type} (f : ε → ε')

/-! ### The channel -/

theorem SourceGives.mapErr {f : ε → ε'} {rx rx' : Source ε} {a : RxAnswer ε} (h : SourceGives rx a rx') :
    SourceGives (rx.mapErr f) (a.mapErr f) (rx'.mapErr f) := by
  obtain ⟨as, ha, rfl⟩ | ⟨ha, hafter, rfl⟩ := h
  · exact .inl ⟨as.map (·.mapErr f), by simp [Source.mapErr, ha], rfl⟩
  · exact .inr ⟨by simp [Source.mapErr, ha], by simp [Source.mapErr, hafter], rfl⟩

theorem sourceSilent_mapErr_iff {rx : Source ε} : SourceSilent (rx.mapErr f) ↔ SourceSilent rx := by
  simp [SourceSilent, Source.mapErr]

theorem supplies_mapErr {f : ε → ε'} {bs : List Byte} {rx rx' : Source ε} (h : Supplies rx bs rx') :
    Supplies (rx.mapErr f) bs (rx'.mapErr f) := by
  induction bs generalizing rx with
  | nil => exact congrArg (Source.mapErr f) h
  | cons b bs ih =>
    obtain ⟨next, hgives, hrest⟩ := h
    exact ⟨next.mapErr f, hgives.mapErr, ih hrest⟩

theorem SinkGives.mapErr {f : ε → ε'} {tx tx' : Sink ε} {a : TxAnswer ε} {bs : List Byte} (h : SinkGives tx a bs tx') :
    SinkGives (tx.mapErr f) (a.mapErr f) bs (tx'.mapErr f) := by
  obtain ⟨as, ha, rfl⟩ | ⟨ha, hafter, rfl⟩ := h
  · exact .inl ⟨as.map (·.mapErr f), by simp [Sink.mapErr, ha], rfl⟩
  · exact .inr ⟨by simp [Sink.mapErr, ha], by simp [Sink.mapErr, hafter], rfl⟩

theorem sinkSilent_mapErr_iff {tx : Sink ε} : SinkSilent (tx.mapErr f) ↔ SinkSilent tx := by
  simp [SinkSilent, Sink.mapErr]

theorem source_answering_mapErr (rx : Source ε) : (rx.mapErr f).answering = rx.answering := by
  rw [Bool.eq_iff_iff, ← not_iff_not, Bool.not_eq_true, Bool.not_eq_true, Source.answering_eq_false_iff,
    Source.answering_eq_false_iff, sourceSilent_mapErr_iff]

theorem sink_answering_mapErr (tx : Sink ε) : (tx.mapErr f).answering = tx.answering := by
  rw [Bool.eq_iff_iff, ← not_iff_not, Bool.not_eq_true, Bool.not_eq_true, Sink.answering_eq_false_iff,
    Sink.answering_eq_false_iff, sinkSilent_mapErr_iff]

theorem answered_mapErr (op : InFlight) (s : State.At ε) : answered op (s.mapErr f) = answered op s := by
  cases op with
  | encode32 e => exact sink_answering_mapErr f s.tx
  | encode64 e => exact sink_answering_mapErr f s.tx
  | decode32 d => exact source_answering_mapErr f s.rx
  | decode64 d => exact source_answering_mapErr f s.rx

/-! ### The state -/

theorem respond_mapErr (x : Response ε) (s : State.At ε) : respond (x.mapErr f) (s.mapErr f) = (respond x s).mapErr f := by
  simp [respond, State.At.mapErr]

theorem respondOk_mapErr (r : Port) (n : Count) (s : State.At ε) :
    respondOk r n (s.mapErr f) = (respondOk r n s).mapErr f := respond_mapErr f (.ok r n) s

theorem raiseChannelFailure_mapErr (e : ε) (s : State.At ε) :
    raiseChannelFailure (f e) (s.mapErr f) = (raiseChannelFailure e s).mapErr f := respond_mapErr f (.fail e) s

theorem assertReset_mapErr (k : Nat) (s : State.At ε) : assertReset k (s.mapErr f) = (assertReset k s).mapErr f := by
  obtain ⟨block, rx, tx, agenda, responses⟩ := s
  cases block with
  | idle => rfl
  | inReset => rfl
  | busy op => cases op <;> rfl

theorem releaseReset_mapErr (s : State.At ε) : releaseReset (s.mapErr f) = (releaseReset s).mapErr f := by
  obtain ⟨block, rx, tx, agenda, responses⟩ := s
  cases block <;> rfl

theorem serveRx_mapErr (a : RxAnswer ε) (s : State.At ε) : serveRx (a.mapErr f) (s.mapErr f) = (serveRx a s).mapErr f := by
  simp [serveRx, State.At.mapErr, Source.mapErr]

theorem serveTx_mapErr (a : TxAnswer ε) (s : State.At ε) : serveTx (a.mapErr f) (s.mapErr f) = (serveTx a s).mapErr f := by
  simp [serveTx, State.At.mapErr, Sink.mapErr]

theorem loopback_mapErr (e : ε) (s : State.At ε) : loopback (f e) (s.mapErr f) = (loopback e s).mapErr f := by
  simp [loopback, State.At.mapErr, Source.mapErr, Source.ofBytes, Sink.mapErr, RxAnswer.mapErr, Function.comp_def]

/-! ### Operations and commands -/

theorem encFinish_mapErr {W : Nat} (pending : EncState W → InFlight) (e : EncState W) (s : State.At ε) :
    encFinish pending e (s.mapErr f) = (encFinish pending e s).mapErr f := by
  obtain ⟨tx, hg, hrun⟩ | ⟨k, err, tx, hg, hrun⟩ | ⟨hsilent, hrun⟩ := encFinish_cases pending e s
  · rw [hrun, encFinish_done (s := s.mapErr f) hg.mapErr]
    exact respondOk_mapErr f _ _ { s with tx := tx }
  · rw [hrun, encFinish_failed (s := s.mapErr f) hg.mapErr]
    exact raiseChannelFailure_mapErr f _ { s with tx := tx }
  · rw [hrun, encFinish_silent (s := s.mapErr f) ((sinkSilent_mapErr_iff f).2 hsilent)]
    rfl

theorem decRun_mapErr {W : Nat} (pending : DecState W → InFlight) (bound : Nat) (last : Byte) (d : DecState W)
    (s : State.At ε) :
    decRun pending bound last d (s.mapErr f) = (decRun pending bound last d s).mapErr f := by
  obtain hspent | hd := le_or_gt bound d.i
  · rw [decRun_spent hspent, decRun_spent hspent, respondOk_mapErr]
  · obtain ⟨init, b, rx, hsup, ⟨hl, hmore, hlast⟩, hrun⟩ | ⟨init, e, mid, rx, hsup, hl, hmore, hg, hrun⟩ |
      ⟨init, mid, hsup, hl, hmore, hsilent, hrun⟩ := decRun_cases pending last s hd
    · rw [hrun, decRun_value (s := s.mapErr f) (supplies_mapErr hsup) hmore (by omega) (hlast.imp_right (by omega))]
      exact respondOk_mapErr f _ _ { s with rx := rx }
    · rw [hrun, decRun_failed (s := s.mapErr f) (supplies_mapErr hsup) hmore hl hg.mapErr]
      exact raiseChannelFailure_mapErr f _ { s with rx := rx }
    · rw [hrun, decRun_waiting (s := s.mapErr f) (supplies_mapErr hsup) hmore hl ((sourceSilent_mapErr_iff f).2 hsilent)]
      rfl

theorem resume_mapErr (p : Profile) (op : InFlight) (s : State.At ε) : resume p op (s.mapErr f) = (resume p op s).mapErr f := by
  cases op with
  | encode32 e => exact encFinish_mapErr f _ e s
  | encode64 e => exact encFinish_mapErr f _ e s
  | decode32 d => exact decRun_mapErr f _ _ _ d s
  | decode64 d => exact decRun_mapErr f _ _ _ d s

theorem whenIdle_mapErr {f : ε → ε'} {i : Instr} {run : State.At ε → State.At ε} {run' : State.At ε' → State.At ε'}
    {s : State.At ε} (h : run' (s.mapErr f) = (run s).mapErr f) {t : State.At ε} (ht : whenIdle i run s = .next t) :
    whenIdle i run' (s.mapErr f) = .next (t.mapErr f) := by
  by_cases hs : s.block = .idle
  · rw [whenIdle_idle hs] at ht
    cases ht
    rw [whenIdle_idle (s := s.mapErr f) hs, h]
  · rw [whenIdle_held hs] at ht
    cases ht
    rw [whenIdle_held (s := s.mapErr f) hs]
    rfl

theorem execAt_mapErr {p : Profile} {i : Instr} {s t : State.At ε} (ht : execAt p i s = .next t) :
    execAt p i (s.mapErr f) = .next (t.mapErr f) := by
  cases i with
  | zigzagEncode32 x => exact whenIdle_mapErr (respondOk_mapErr f _ _ s) ht
  | zigzagDecode32 u => exact whenIdle_mapErr (respondOk_mapErr f _ _ s) ht
  | zigzagEncode64 x => exact whenIdle_mapErr (respondOk_mapErr f _ _ s) ht
  | zigzagDecode64 u => exact whenIdle_mapErr (respondOk_mapErr f _ _ s) ht
  | varintEncodeUnsigned32 x => exact whenIdle_mapErr (encFinish_mapErr f _ _ s) ht
  | varintDecodeUnsigned32 => exact whenIdle_mapErr (decRun_mapErr f _ _ _ _ s) ht
  | varintEncodeUnsigned64 x => exact whenIdle_mapErr (encFinish_mapErr f _ _ s) ht
  | varintDecodeUnsigned64 => exact whenIdle_mapErr (decRun_mapErr f _ _ _ _ s) ht

/-! ### The step -/

/-- Renaming the failure values in what comes next. -/
def Action.mapErr : Action ε → Action ε'
  | .resume op => .resume op
  | .run i s => .run i (s.mapErr f)
  | .move s => .move (s.mapErr f)

theorem moveIdle_mapErr (s : State.At ε) : moveIdle (s.mapErr f) = (moveIdle s).mapErr f := by
  obtain ⟨block, rx, tx, agenda, responses⟩ := s
  cases agenda with
  | nil => rfl
  | cons m rest =>
    cases m with
    | issue w => rfl
    | serveRx a => exact congrArg Action.move (serveRx_mapErr f a ⟨block, rx, tx, rest, responses⟩)
    | serveTx a => exact congrArg Action.move (serveTx_mapErr f a ⟨block, rx, tx, rest, responses⟩)
    | connectRx rx' => rfl
    | connectTx tx' => rfl
    | loopback e => exact congrArg Action.move (loopback_mapErr f e ⟨block, rx, tx, rest, responses⟩)
    | assertReset k => exact congrArg Action.move (assertReset_mapErr f k ⟨block, rx, tx, rest, responses⟩)
    | releaseReset => exact congrArg Action.move (releaseReset_mapErr f ⟨block, rx, tx, rest, responses⟩)

theorem moveBusy_mapErr (s : State.At ε) : moveBusy (s.mapErr f) = (moveBusy s).mapErr f := by
  obtain ⟨block, rx, tx, agenda, responses⟩ := s
  cases agenda with
  | nil => rfl
  | cons m rest =>
    cases m with
    | serveRx a => exact congrArg Action.move (serveRx_mapErr f a ⟨block, rx, tx, rest, responses⟩)
    | serveTx a => exact congrArg Action.move (serveTx_mapErr f a ⟨block, rx, tx, rest, responses⟩)
    | assertReset k => exact congrArg Action.move (assertReset_mapErr f k ⟨block, rx, tx, rest, responses⟩)
    | releaseReset => exact congrArg Action.move (releaseReset_mapErr f ⟨block, rx, tx, rest, responses⟩)
    | _ => rfl

theorem moveInReset_mapErr (s : State.At ε) : moveInReset (s.mapErr f) = (moveInReset s).mapErr f := by
  obtain ⟨block, rx, tx, agenda, responses⟩ := s
  cases agenda with
  | nil => rfl
  | cons m rest =>
    cases m with
    | serveRx a => exact congrArg Action.move (serveRx_mapErr f a ⟨block, rx, tx, rest, responses⟩)
    | serveTx a => exact congrArg Action.move (serveTx_mapErr f a ⟨block, rx, tx, rest, responses⟩)
    | loopback e => exact congrArg Action.move (loopback_mapErr f e ⟨block, rx, tx, rest, responses⟩)
    | assertReset k => exact congrArg Action.move (assertReset_mapErr f k ⟨block, rx, tx, rest, responses⟩)
    | releaseReset => exact congrArg Action.move (releaseReset_mapErr f ⟨block, rx, tx, rest, responses⟩)
    | _ => rfl

theorem nextAction_mapErr (s : State.At ε) : nextAction (s.mapErr f) = (nextAction s).mapErr f := by
  cases hb : s.block with
  | idle => rw [nextAction_idle hb, nextAction_idle (s := s.mapErr f) hb, moveIdle_mapErr]
  | inReset => rw [nextAction_inReset hb, nextAction_inReset (s := s.mapErr f) hb, moveInReset_mapErr]
  | busy op =>
    cases ha : answered op s with
    | true => rw [nextAction_answered hb ha, nextAction_answered (s := s.mapErr f) hb (answered_mapErr f op s ▸ ha)]; rfl
    | false =>
      rw [nextAction_waiting hb ha, nextAction_waiting (s := s.mapErr f) hb (answered_mapErr f op s ▸ ha), moveBusy_mapErr]

theorem stepAt_mapErr {p : Profile} {s t : State.At ε} (ht : stepAt p s = .next t) :
    stepAt p (s.mapErr f) = .next (t.mapErr f) := by
  have hnext := nextAction_mapErr f s
  obtain ⟨op, ha, hstep⟩ | ⟨i, u, ha, hstep⟩ | ⟨u, ha, hstep⟩ := stepAt_cases p s
  · rw [ha] at hnext
    rw [hstep] at ht
    cases ht
    rw [stepAt_of_resume hnext, resume_mapErr]
  · rw [ha] at hnext
    rw [stepAt, hnext]
    exact execAt_mapErr f (hstep.symm.trans ht)
  · rw [ha] at hnext
    rw [hstep] at ht
    cases ht
    exact stepAt_of_move hnext

end Sys2Proof.Machine
end

section
/-! PROOFS. All renamings of the failure values into `Err` together tell any two states apart, so that what is said at `Err` is
said at every type (00_scope.md section 4). -/

namespace Sys2Proof.Machine

variable {ε : Type}

/-- No two different things have the same image under every renaming into `Err`. -/
def JointlyInjective {α β : Type} (m : (ε → Err) → α → β) : Prop := ∀ a b, (∀ f, m f a = m f b) → a = b

/-- Two failure values are told apart by the renaming that gives one of them the name `EndOfData`. -/
theorem jointlyInjective_apply : JointlyInjective fun (f : ε → Err) e => f e := by
  classical
  intro a b h
  have happly := h fun e => if e = a then .endOfData else .other 0
  by_contra hne
  simp [Ne.symm hne] at happly

theorem JointlyInjective.list {α β : Type} {m : (ε → Err) → α → β} (h : JointlyInjective m) :
    JointlyInjective fun f (as : List α) => as.map (m f) := by
  intro as
  induction as with
  | nil =>
    intro bs hmap
    exact (List.map_eq_nil_iff.1 (hmap fun _ => .endOfData).symm).symm
  | cons a as ih =>
    intro bs hmap
    cases bs with
    | nil => cases hmap fun _ => .endOfData
    | cons b bs =>
      simp only [List.map_cons, List.cons.injEq, forall_and] at hmap
      rw [h a b hmap.1, ih bs hmap.2]

theorem JointlyInjective.option {α β : Type} {m : (ε → Err) → α → β} (h : JointlyInjective m) :
    JointlyInjective fun f (o : Option α) => o.map (m f) := by
  intro o o' hmap
  cases o <;> cases o' <;> simp only [Option.map_some, Option.map_none, reduceCtorEq, forall_const, Option.some.injEq] at hmap ⊢
  exact h _ _ hmap

theorem rxAnswer_jointlyInjective : JointlyInjective fun (f : ε → Err) (a : RxAnswer ε) => a.mapErr f := by
  intro a b h
  cases a <;> cases b <;>
    simp only [RxAnswer.mapErr, reduceCtorEq, forall_const, RxAnswer.byte.injEq, RxAnswer.fail.injEq] at h ⊢
  case byte.byte => exact h
  case fail.fail => exact jointlyInjective_apply _ _ h

theorem txAnswer_jointlyInjective : JointlyInjective fun (f : ε → Err) (a : TxAnswer ε) => a.mapErr f := by
  intro a b h
  cases a <;> cases b <;>
    simp only [TxAnswer.mapErr, reduceCtorEq, forall_const, TxAnswer.fail.injEq, forall_and] at h ⊢
  case fail.fail => exact ⟨h.1, jointlyInjective_apply _ _ h.2⟩

theorem response_jointlyInjective : JointlyInjective fun (f : ε → Err) (x : Response ε) => x.mapErr f := by
  intro a b h
  cases a <;> cases b <;>
    simp only [Response.mapErr, reduceCtorEq, forall_const, Response.ok.injEq, Response.fail.injEq] at h ⊢
  case ok.ok => exact h
  case fail.fail => exact jointlyInjective_apply _ _ h

theorem source_jointlyInjective : JointlyInjective fun (f : ε → Err) (rx : Source ε) => rx.mapErr f := by
  rintro ⟨as, after⟩ ⟨as', after'⟩ h
  simp only [Source.mapErr, Source.mk.injEq, forall_and] at h ⊢
  exact ⟨rxAnswer_jointlyInjective.list _ _ h.1, rxAnswer_jointlyInjective.option _ _ h.2⟩

theorem sink_jointlyInjective : JointlyInjective fun (f : ε → Err) (tx : Sink ε) => tx.mapErr f := by
  rintro ⟨w, as, after⟩ ⟨w', as', after'⟩ h
  simp only [Sink.mapErr, Sink.mk.injEq, forall_and, forall_const] at h ⊢
  obtain ⟨hwritten, hanswers, hafter⟩ := h
  exact ⟨hwritten, txAnswer_jointlyInjective.list _ _ hanswers, txAnswer_jointlyInjective.option _ _ hafter⟩

theorem hostMove_jointlyInjective : JointlyInjective fun (f : ε → Err) (m : HostMove ε) => m.mapErr f := by
  intro a b h
  cases a <;> cases b <;>
    simp only [HostMove.mapErr, reduceCtorEq, forall_const, HostMove.issue.injEq, HostMove.serveRx.injEq,
      HostMove.serveTx.injEq, HostMove.connectRx.injEq, HostMove.connectTx.injEq, HostMove.loopback.injEq,
      HostMove.assertReset.injEq] at h ⊢
  case issue.issue => exact h
  case serveRx.serveRx => exact rxAnswer_jointlyInjective _ _ h
  case serveTx.serveTx => exact txAnswer_jointlyInjective _ _ h
  case connectRx.connectRx => exact source_jointlyInjective _ _ h
  case connectTx.connectTx => exact sink_jointlyInjective _ _ h
  case loopback.loopback => exact jointlyInjective_apply _ _ h
  case assertReset.assertReset => exact h

theorem state_jointlyInjective : JointlyInjective fun (f : ε → Err) (s : State.At ε) => s.mapErr f := by
  rintro ⟨block, rx, tx, agenda, responses⟩ ⟨block', rx', tx', agenda', responses'⟩ h
  simp only [State.At.mapErr, State.At.mk.injEq, forall_and, forall_const] at h ⊢
  obtain ⟨hblock, hrx, htx, hagenda, hresponses⟩ := h
  exact ⟨hblock, source_jointlyInjective _ _ hrx, sink_jointlyInjective _ _ htx, hostMove_jointlyInjective.list _ _ hagenda,
    response_jointlyInjective.list _ _ hresponses⟩

/-! ### The obligation -/

theorem execAt_next (p : Profile) (i : Instr) (s : State.At ε) : ∃ t, execAt p i s = .next t := by
  cases i <;> exact ⟨_, rfl⟩

theorem stepAt_next (p : Profile) (s : State.At ε) : ∃ t, stepAt p s = .next t := by
  obtain ⟨op, -, hstep⟩ | ⟨i, t, -, hstep⟩ | ⟨t, -, hstep⟩ := stepAt_cases p s
  · exact ⟨_, hstep⟩
  · rw [hstep]
    exact execAt_next p i t
  · exact ⟨t, hstep⟩

/-- What leads on from every state and commutes with renaming is decided by its renamings into `Err`. -/
theorem eq_next_iff_forall_mapErr {run : ∀ {ε : Type}, State.At ε → Host.Outcome (State.At ε) Fault Refusal}
    (hnext : ∀ s : State.At ε, ∃ t, run s = .next t)
    (hmap : ∀ (f : ε → Err) {s t : State.At ε}, run s = .next t → run (s.mapErr f) = .next (t.mapErr f)) (s t : State.At ε) :
    run s = .next t ↔ ∀ f : ε → Err, run (s.mapErr f) = .next (t.mapErr f) := by
  refine ⟨fun h f => hmap f h, fun h => ?_⟩
  obtain ⟨u, hu⟩ := hnext s
  have himages : ∀ f : ε → Err, u.mapErr f = t.mapErr f := fun f =>
    Host.Outcome.next.inj ((hmap f hu).symm.trans (h f))
  rw [hu, state_jointlyInjective u t himages]

/-- Settles O45: each operation passes on the value it is given, and the renamings into `Err` tell states apart. -/
theorem failureValuesPassUnchanged : Obligations.FailureValuesPassUnchanged :=
  ⟨fun _ _ _ f _ _ _ => execAt_mapErr f, fun _ _ _ f _ _ => stepAt_mapErr f,
    fun p _ i => eq_next_iff_forall_mapErr (run := execAt p i) (execAt_next p i) fun f _ _ => execAt_mapErr f,
    fun p _ => eq_next_iff_forall_mapErr (run := stepAt p) (stepAt_next p) fun f _ _ => stepAt_mapErr f,
    execAt_profile, stepAt_profile⟩

end Sys2Proof.Machine
end
